-- ==== Sys2Proof/Word.lean ====
section
/-! DEFINITION. The word types of the hardware (spec/00_scope.md R8 and R9): what the spec treats as bits. -/

namespace Sys2Proof

/-- A byte of memory (R40). -/
abbrev Byte := BitVec 8

/-- A halfword: two bytes (00_scope.md glossary). -/
abbrev Half := BitVec 16

/-- A word: a register value, the pc, an instruction (R8: XLEN = PCLEN = 32, one 32-bit word an instruction). -/
abbrev Word := BitVec 32

/-- A memory address (R8: 32 bits for both memories). -/
abbrev Addr := BitVec 32

/-- The instruction counter's value (R8: CNTLEN = 64). -/
abbrev Count := BitVec 64

/-- A register index as an instruction holds it: a 5-bit field, so always one of 0 to 31 (R12, R16). -/
abbrev RegIdx := BitVec 5

/-- The field funct3 (R12, R66). -/
abbrev Funct3 := BitVec 3

/-- The field funct7 (R12, R66). -/
abbrev Funct7 := BitVec 7

/-- The field opcode (R66). -/
abbrev Opcode := BitVec 7

end Sys2Proof
end

