-- ==== Sys2Proof/Syntax.lean ====
section
/-! DEFINITION. The instructions: one constructor per row of spec/opcode_table.json (spec/00_scope.md R2, spec/30_encoding.md R73). -/

namespace Sys2Proof

/-- The eleven instructions. Operands are the fields of the encoding (R66), so their types are the fields' widths and an operand
outside its field cannot be written. The six rows whose funct7 is "any" (R73, R76) keep its value, which no meaning reads: with it a
word is one instruction and an instruction one word. -/
inductive Instr where
  /-- ADD rd, rs1, rs2 (R88). -/
  | add (rd rs1 rs2 : RegIdx)
  /-- SUB rd, rs1, rs2 (R89). -/
  | sub (rd rs1 rs2 : RegIdx)
  /-- SLL rd, rs1, rs2 (R90); funct7 is any value. -/
  | sll (rd rs1 rs2 : RegIdx) (funct7 : Funct7)
  /-- SLT rd, rs1, rs2 (R91); funct7 is any value. -/
  | slt (rd rs1 rs2 : RegIdx) (funct7 : Funct7)
  /-- SLTU rd, rs1, rs2 (R92); funct7 is any value. -/
  | sltu (rd rs1 rs2 : RegIdx) (funct7 : Funct7)
  /-- XOR rd, rs1, rs2 (R93); funct7 is any value. -/
  | xor (rd rs1 rs2 : RegIdx) (funct7 : Funct7)
  /-- SRL rd, rs1, rs2 (R94). -/
  | srl (rd rs1 rs2 : RegIdx)
  /-- SRA rd, rs1, rs2 (R95). -/
  | sra (rd rs1 rs2 : RegIdx)
  /-- OR rd, rs1, rs2 (R96); funct7 is any value. -/
  | or (rd rs1 rs2 : RegIdx) (funct7 : Funct7)
  /-- AND rd, rs1, rs2 (R97); funct7 is any value. -/
  | and (rd rs1 rs2 : RegIdx) (funct7 : Funct7)
  /-- HALT, the all-zero word (R98). -/
  | halt
deriving DecidableEq, Repr

end Sys2Proof
end

