-- ==== Sys2Proof/WellFormed.lean ====
section
/-! DEFINITION. The Decoded Instruction of the decoder unit (spec/30_encoding.md R65), and when one is well-formed (R68 to R70). An
instruction of Instr is well-formed when its Decoded Instruction is; its operands' types are the fields' widths, so each is. -/

namespace Sys2Proof

/-- The format tag of a Decoded Instruction (R65, R68). -/
inductive Format where
  | rType
  | unknown
deriving DecidableEq, Repr

/-- The Decoded Instruction (R65): what the decoder gives the execution engine. It lives only inside one step (R31). -/
structure DecodedInstr where
  opcode : Opcode
  format : Format
  rd     : RegIdx
  rs1    : RegIdx
  rs2    : RegIdx
  funct3 : Funct3
  funct7 : Funct7
  imm    : Word
deriving DecidableEq, Repr

/-- The opcode of the R-type format (R68). -/
def rTypeOpcode : Opcode := 0x33

/-- The format is the one the opcode gives (R68). -/
def DecodedInstr.formatAgrees (d : DecodedInstr) : Bool :=
  match d.format with
  | .rType => d.opcode == rTypeOpcode
  | .unknown => d.opcode != rTypeOpcode

/-- The immediate is 0, in both formats (R69, R70). -/
def DecodedInstr.immZero (d : DecodedInstr) : Bool := d.imm == 0

/-- An Unknown format has every instruction-specific field 0 (R70). -/
def DecodedInstr.unknownZeroed (d : DecodedInstr) : Bool :=
  match d.format with
  | .rType => true
  | .unknown => d.rd == 0 && d.rs1 == 0 && d.rs2 == 0 && d.funct3 == 0 && d.funct7 == 0

/-- A Decoded Instruction that the decoder can give. -/
def DecodedInstr.wellFormed (d : DecodedInstr) : Bool :=
  d.formatAgrees && d.immZero && d.unknownZeroed

/-- The R-type Decoded Instruction with these fields (R69). -/
def DecodedInstr.ofRType (funct7 : Funct7) (rs2 rs1 : RegIdx) (funct3 : Funct3) (rd : RegIdx) : DecodedInstr :=
  { opcode := rTypeOpcode, format := .rType, rd := rd, rs1 := rs1, rs2 := rs2, funct3 := funct3, funct7 := funct7, imm := 0 }

/-- The Unknown Decoded Instruction with this opcode (R70). -/
def DecodedInstr.ofUnknown (opcode : Opcode) : DecodedInstr :=
  { opcode := opcode, format := .unknown, rd := 0, rs1 := 0, rs2 := 0, funct3 := 0, funct7 := 0, imm := 0 }

/-- The Decoded Instruction an instruction stands for, by the function codes of R73. For the halt word it is the Unknown one with
opcode 0 (R74), which a step never makes. -/
def Instr.decoded : Instr → DecodedInstr
  | .add rd rs1 rs2 => .ofRType 0x00 rs2 rs1 0x0 rd
  | .sub rd rs1 rs2 => .ofRType 0x20 rs2 rs1 0x0 rd
  | .sll rd rs1 rs2 f => .ofRType f rs2 rs1 0x1 rd
  | .slt rd rs1 rs2 f => .ofRType f rs2 rs1 0x2 rd
  | .sltu rd rs1 rs2 f => .ofRType f rs2 rs1 0x3 rd
  | .xor rd rs1 rs2 f => .ofRType f rs2 rs1 0x4 rd
  | .srl rd rs1 rs2 => .ofRType 0x00 rs2 rs1 0x5 rd
  | .sra rd rs1 rs2 => .ofRType 0x20 rs2 rs1 0x5 rd
  | .or rd rs1 rs2 f => .ofRType f rs2 rs1 0x6 rd
  | .and rd rs1 rs2 f => .ofRType f rs2 rs1 0x7 rd
  | .halt => .ofUnknown 0

/-- An instruction is well-formed when its Decoded Instruction is. -/
def Instr.wellFormed (i : Instr) : Bool := i.decoded.wellFormed

end Sys2Proof
end

