-- ==== Sys2Proof/Decode.lean ====
section
/-! DEFINITION. The decoder unit (spec/30_encoding.md), the function dispatch (spec/40_alu_rtype.md R84), the byte order of words, and
after them the encoder, the opcode table as data, and the assembler notation. Total on any word and any bytes; a word that is no
instruction is rejected by the name of the fault it raises. -/

namespace Sys2Proof

/-! ## Byte order (R42) -/

/-- The value of bytes in little-endian order: byte 0 is the least significant (R42). -/
def leValue : List Byte → Nat
  | [] => 0
  | b :: bs => b.toNat + 256 * leValue bs

/-- The n bytes of a value in little-endian order (R42): byte k is bits 8k+7 to 8k. -/
def leBytes : Nat → Nat → List Byte
  | 0, _ => []
  | n + 1, v => BitVec.ofNat 8 v :: leBytes n (v / 256)

/-! ## Fields of a word (R66, R67) -/

/-- Bits lo to lo + len - 1 of a word (R9). -/
def bitField (w : Word) (lo len : Nat) : BitVec len := w.extractLsb' lo len

/-- opcode, bits 6 to 0 (R67). -/
def opcodeField (w : Word) : Opcode := bitField w 0 7

/-- rd, bits 11 to 7 (R67). -/
def rdField (w : Word) : RegIdx := bitField w 7 5

/-- funct3, bits 14 to 12 (R67). -/
def funct3Field (w : Word) : Funct3 := bitField w 12 3

/-- rs1, bits 19 to 15 (R67). -/
def rs1Field (w : Word) : RegIdx := bitField w 15 5

/-- rs2, bits 24 to 20 (R67). -/
def rs2Field (w : Word) : RegIdx := bitField w 20 5

/-- funct7, bits 31 to 25 (R67). -/
def funct7Field (w : Word) : Funct7 := bitField w 25 7

/-! ## The decoder unit -/

/-- The decoder: a pure total function of the word (R64), which classifies by the opcode alone (R68) and gives the fields of R69 or
the zeroes of R70. -/
def decodeFields (w : Word) : DecodedInstr :=
  if opcodeField w = rTypeOpcode then
    .ofRType (funct7Field w) (rs2Field w) (rs1Field w) (funct3Field w) (rdField w)
  else
    .ofUnknown (opcodeField w)

/-- The ten operations of the dispatch table (R84). -/
inductive AluOp where
  | add | sub | sll | slt | sltu | xor | srl | sra | or | and
deriving DecidableEq, Repr

/-- Function dispatch by (funct3, funct7), row by row of R84; none where the table has no row. -/
def select (funct3 : Funct3) (funct7 : Funct7) : Option AluOp :=
  match funct3.toNat with
  | 0 => if funct7 = 0x00 then some .add else if funct7 = 0x20 then some .sub else none
  | 1 => some .sll
  | 2 => some .slt
  | 3 => some .sltu
  | 4 => some .xor
  | 5 => if funct7 = 0x00 then some .srl else if funct7 = 0x20 then some .sra else none
  | 6 => some .or
  | _ => some .and

/-- The instruction with this operation and the operands of a Decoded Instruction. -/
def AluOp.instr (op : AluOp) (d : DecodedInstr) : Instr :=
  match op with
  | .add => .add d.rd d.rs1 d.rs2
  | .sub => .sub d.rd d.rs1 d.rs2
  | .sll => .sll d.rd d.rs1 d.rs2 d.funct7
  | .slt => .slt d.rd d.rs1 d.rs2 d.funct7
  | .sltu => .sltu d.rd d.rs1 d.rs2 d.funct7
  | .xor => .xor d.rd d.rs1 d.rs2 d.funct7
  | .srl => .srl d.rd d.rs1 d.rs2
  | .sra => .sra d.rd d.rs1 d.rs2
  | .or => .or d.rd d.rs1 d.rs2 d.funct7
  | .and => .and d.rd d.rs1 d.rs2 d.funct7

/-- Why a word is no instruction (R75): the fault that the execution engine raises for it. -/
inductive Reject where
  /-- The opcode is not 0x33 and the word is not the halt word (R83). -/
  | unknownOpcode (opcode : Opcode)
  /-- The dispatch table has no row for these function codes (R84). -/
  | unknownFunction (funct3 : Funct3) (funct7 : Funct7)
deriving DecidableEq, Repr

/-- The engine's two tests on a Decoded Instruction, the opcode first (R83), then the function codes (R84). -/
def DecodedInstr.toInstr (d : DecodedInstr) : Except Reject Instr :=
  if d.opcode = rTypeOpcode then
    match select d.funct3 d.funct7 with
    | some op => .ok (op.instr d)
    | none => .error (.unknownFunction d.funct3 d.funct7)
  else
    .error (.unknownOpcode d.opcode)

/-- The all-zero word (R74, R98). -/
def haltWord : Word := 0x00000000#32

/-- The instruction a word is: the halt word is tested for before the decoder (R74, R100), every other word goes through the decoder
and the engine's two tests (R73). -/
def decode (w : Word) : Except Reject Instr :=
  if w = haltWord then .ok .halt else (decodeFields w).toInstr

/-- Why bytes hold no instruction. -/
inductive BytesReject where
  /-- Fewer than the four bytes every instruction has (R79). -/
  | tooShort
  /-- Four bytes are there and their word is no instruction. -/
  | word (r : Reject)
deriving DecidableEq, Repr

/-- The instruction at the head of a list of bytes, and the bytes after it: always four bytes, little-endian (R66, R79). -/
def decodeBytes : List Byte → Except BytesReject (Instr × List Byte)
  | b0 :: b1 :: b2 :: b3 :: rest =>
    match decode (BitVec.ofNat 32 (leValue [b0, b1, b2, b3])) with
    | .ok i => .ok (i, rest)
    | .error r => .error (.word r)
  | _ => .error .tooShort

/-- The instruction the decoder reads from an instruction whose bits are w, every bit from nbits on being 0. -/
def decodeTableWord (nbits w : Nat) : Option Instr :=
  match decodeBytes (leBytes 4 (w % 2 ^ nbits)) with
  | .ok (i, _) => some i
  | .error _ => none

/-! ## The encoder -/

/-- The word with these fields, in the layout of R66. -/
def encodeFields (funct7 : Funct7) (rs2 rs1 : RegIdx) (funct3 : Funct3) (rd : RegIdx) (opcode : Opcode) : Word :=
  funct7 ++ rs2 ++ rs1 ++ funct3 ++ rd ++ opcode

/-- The word of an instruction, with the function codes of R73 (R82). -/
def encode : Instr → Word
  | .add rd rs1 rs2 => encodeFields 0x00 rs2 rs1 0x0 rd 0x33
  | .sub rd rs1 rs2 => encodeFields 0x20 rs2 rs1 0x0 rd 0x33
  | .sll rd rs1 rs2 f => encodeFields f rs2 rs1 0x1 rd 0x33
  | .slt rd rs1 rs2 f => encodeFields f rs2 rs1 0x2 rd 0x33
  | .sltu rd rs1 rs2 f => encodeFields f rs2 rs1 0x3 rd 0x33
  | .xor rd rs1 rs2 f => encodeFields f rs2 rs1 0x4 rd 0x33
  | .srl rd rs1 rs2 => encodeFields 0x00 rs2 rs1 0x5 rd 0x33
  | .sra rd rs1 rs2 => encodeFields 0x20 rs2 rs1 0x5 rd 0x33
  | .or rd rs1 rs2 f => encodeFields f rs2 rs1 0x6 rd 0x33
  | .and rd rs1 rs2 f => encodeFields f rs2 rs1 0x7 rd 0x33
  | .halt => 0x00000000

/-- The bytes of an instruction as the memory holds them, the first at the lowest address (R42, R66). -/
def encodeBytes (i : Instr) : List Byte := leBytes 4 (encode i).toNat

/-! ## The opcode table as data (R73) -/

/-- A row of the opcode table: w is the row's when w and mask equal match. -/
structure OpcodeRow where
  mnemonic : String
  matchBits : Word
  mask : Word
deriving DecidableEq, Repr

/-- A word selects a row (R73). -/
def OpcodeRow.selects (r : OpcodeRow) (w : Word) : Bool := w &&& r.mask == r.matchBits

/-- The eleven (match, mask) pairs of R73. -/
def opcodeTable : List OpcodeRow :=
  [⟨"ADD", 0x00000033, 0xFE00707F⟩, ⟨"SUB", 0x40000033, 0xFE00707F⟩, ⟨"SLL", 0x00001033, 0x0000707F⟩,
   ⟨"SLT", 0x00002033, 0x0000707F⟩, ⟨"SLTU", 0x00003033, 0x0000707F⟩, ⟨"XOR", 0x00004033, 0x0000707F⟩,
   ⟨"SRL", 0x00005033, 0xFE00707F⟩, ⟨"SRA", 0x40005033, 0xFE00707F⟩, ⟨"OR", 0x00006033, 0x0000707F⟩,
   ⟨"AND", 0x00007033, 0x0000707F⟩, ⟨"HALT", 0x00000000, 0xFFFFFFFF⟩]

/-- The mnemonic of an instruction, as spec/opcode_table.json writes it. -/
def Instr.mnemonic : Instr → String
  | .add _ _ _ => "ADD"
  | .sub _ _ _ => "SUB"
  | .sll _ _ _ _ => "SLL"
  | .slt _ _ _ _ => "SLT"
  | .sltu _ _ _ _ => "SLTU"
  | .xor _ _ _ _ => "XOR"
  | .srl _ _ _ => "SRL"
  | .sra _ _ _ => "SRA"
  | .or _ _ _ _ => "OR"
  | .and _ _ _ _ => "AND"
  | .halt => "HALT"

/-! ## Assembler notation (R80 to R82; the spec's notation, D25, no part of the machine) -/

/-- The function code funct3 of an operation (R73). -/
def AluOp.funct3 : AluOp → Funct3
  | .add => 0x0 | .sub => 0x0 | .sll => 0x1 | .slt => 0x2 | .sltu => 0x3
  | .xor => 0x4 | .srl => 0x5 | .sra => 0x5 | .or => 0x6 | .and => 0x7

/-- The function code funct7 the assembler gives an operation: 0x00 where the table says any (R73, R82). -/
def AluOp.funct7 : AluOp → Funct7
  | .sub => 0x20 | .sra => 0x20
  | .add => 0x00 | .sll => 0x00 | .slt => 0x00 | .sltu => 0x00 | .xor => 0x00 | .srl => 0x00 | .or => 0x00 | .and => 0x00

/-- `op rd, rs1, rs2` as an instruction: where the table says any, funct7 is 0x00 (R82). -/
def assemble (op : AluOp) (rd rs1 rs2 : RegIdx) : Instr := op.instr (.ofRType 0x00 rs2 rs1 0x0 rd)

/-- A register's name, x0 to x31 (R80). -/
def regName (r : RegIdx) : String := "x" ++ toString r.toNat

/-- The operand list of an R-type instruction, rd first (R80). -/
def operandText (rd rs1 rs2 : RegIdx) : String := regName rd ++ ", " ++ regName rs1 ++ ", " ++ regName rs2

/-- The instruction as a line of assembler (R80). -/
def Instr.assembly : Instr → String
  | .add rd rs1 rs2 => "add " ++ operandText rd rs1 rs2
  | .sub rd rs1 rs2 => "sub " ++ operandText rd rs1 rs2
  | .sll rd rs1 rs2 _ => "sll " ++ operandText rd rs1 rs2
  | .slt rd rs1 rs2 _ => "slt " ++ operandText rd rs1 rs2
  | .sltu rd rs1 rs2 _ => "sltu " ++ operandText rd rs1 rs2
  | .xor rd rs1 rs2 _ => "xor " ++ operandText rd rs1 rs2
  | .srl rd rs1 rs2 => "srl " ++ operandText rd rs1 rs2
  | .sra rd rs1 rs2 => "sra " ++ operandText rd rs1 rs2
  | .or rd rs1 rs2 _ => "or " ++ operandText rd rs1 rs2
  | .and rd rs1 rs2 _ => "and " ++ operandText rd rs1 rs2
  | .halt => "halt"

/-- `nop` (R81). -/
def pseudoNop : Instr := assemble .add 0 0 0

/-- `mv rd, rs` (R81). -/
def pseudoMv (rd rs : RegIdx) : Instr := assemble .add rd rs 0

/-- `neg rd, rs` (R81). -/
def pseudoNeg (rd rs : RegIdx) : Instr := assemble .sub rd 0 rs

/-- `snez rd, rs` (R81). -/
def pseudoSnez (rd rs : RegIdx) : Instr := assemble .sltu rd 0 rs

/-- `sltz rd, rs` (R81). -/
def pseudoSltz (rd rs : RegIdx) : Instr := assemble .slt rd rs 0

/-- `sgtz rd, rs` (R81). -/
def pseudoSgtz (rd rs : RegIdx) : Instr := assemble .slt rd 0 rs

end Sys2Proof
end

