-- ==== Sys2Proof/Config.lean ====
section
/-! DEFINITION. What an implementation of the hardware fixes (spec/00_scope.md R8): the parameters the spec leaves OPEN, and the
sizes the constant State.reset is given. -/

namespace Sys2Proof

/-- The hardware's identity (R3; DESIGN CHOICE of the spec, D22; not observable). -/
def Config.identity : String := "aliakbar2004/RISC-V-R32-Emulator CORE, spec v7"

/-- FILE_LOAD_SETS_PC0 (R8, R56; OPEN, D14): whether the file loader sets the pc to 0. It has no body: nothing can be
proved of its value, so a claim about the file loader holds for both. Log entry 4; safe. -/
opaque Config.fileLoadSetsPc0 : Bool

/-- The largest memory an address of 32 bits reaches, and the greatest legal size (R8, D4). -/
def Config.maxMemorySize : Nat := 4294967296

/-- IMEM_SIZE of the machine in State.reset. DESIGN CHOICE, log entry 1 (unsafe for a statement about State.reset alone): the spec
leaves the size OPEN, and every operation of the model reads it from the state. -/
def Config.resetImemSize : Nat := Config.maxMemorySize

/-- DMEM_SIZE of the machine in State.reset. DESIGN CHOICE, log entry 1, as Config.resetImemSize. -/
def Config.resetDmemSize : Nat := Config.maxMemorySize

end Sys2Proof
end

