-- ==== Sys2Proof/Machine/State.lean ====
section
/-! DEFINITION. The machine state (spec/10_state.md R13), the causes of a halt (R27), why a step can stop, and the machine right
after reset (R32). -/

namespace Sys2Proof.Machine

/-- The two address spaces (R11, R38). -/
inductive Space where
  | imem
  | dmem
deriving DecidableEq, Repr

/-- The three access widths (R41, R52). -/
inductive Width where
  | byte
  | half
  | word
deriving DecidableEq, Repr

/-- A fault of the hardware (R112), with the information the spec says a model records. It halts the machine in place (R113): it is
a value of the state, not an outcome of a step. -/
inductive FaultInfo where
  /-- A checked access out of bounds (R45): space, address, width. -/
  | outOfBounds (space : Space) (addr : Addr) (width : Width)
  /-- A misaligned word or halfword access (R46): space, address, width. -/
  | misaligned (space : Space) (addr : Addr) (width : Width)
  /-- Execution of a word whose opcode is not 0x33 (R83). -/
  | unknownOpcode (opcode : Opcode)
  /-- Execution of an R-type word the dispatch table has no row for (R84). -/
  | unknownFunction (funct3 : Funct3) (funct7 : Funct7)
deriving DecidableEq, Repr

/-- Why the machine halted (R27). The enumeration is HaltCause.code; a fault's value also holds the information of R112. -/
inductive HaltCause where
  /-- Not halted: reset and construction. -/
  | none
  /-- The halt word (R98). -/
  | haltWord
  /-- A fault (R112, R113). -/
  | fault (f : FaultInfo)
  /-- The check of `run` (R103). -/
  | pcOutOfRange
deriving DecidableEq, Repr

/-- One of the two memories (R38): its size, fixed at construction, and its bytes as a list of the addresses whose byte is not the
one an unlisted address reads as, in rising order (Memory.wf in Ops.lean). -/
structure Memory where
  size  : Nat
  cells : List Host.Cell
deriving DecidableEq, Repr

/-- The machine state: R13's elements and no others. -/
structure State where
  /-- x0 to x31; element 0 is the storage cell of R15, which nothing reads or writes. -/
  regs : Vector Word 32
  /-- The program counter (R22). -/
  pc : Word
  /-- The instruction memory (R38). -/
  imem : Memory
  /-- The data memory (R38). -/
  dmem : Memory
  /-- The halted flag (R24). -/
  halted : Bool
  /-- The instruction counter (R26). -/
  instructionCount : Count
  /-- The halt cause (R27). -/
  haltCause : HaltCause
deriving DecidableEq, Repr

/-- Why a step stops with a fault. It has no constructor: every fault of this hardware halts the machine inside its state and the step
answers a next state (R111, R113), so nothing raises one. Exact. -/
inductive Fault where
deriving DecidableEq, Repr

/-- Why the model gives no next state. None of them is raised by a step: notModelled by no arm of exec, the others by a host operation
that the spec itself says a model refuses. -/
inductive Refusal where
  /-- An instruction without a meaning; raised by an arm of exec that has none (there is none). Safe. -/
  | notModelled (mnemonic : String)
  /-- A host write whose value does not fit the accessor (R41, D13); raised by hostWrite. Safe. -/
  | valueTooWide
  /-- A raw read outside the array (R57, D15); raised by rawRead. Safe. -/
  | rawReadOutOfBounds
  /-- Construction with a size outside 1 to 2^32 (R126, D4); raised by initMachine. Safe. -/
  | illegalMemorySize
  /-- Construction whose allocation fails: no machine exists (R63, R115); raised by initMachine. Exact. -/
  | allocationFailed
  /-- An operation on a torn-down machine (R128, D16); raised by transactLive. Safe. -/
  | tornDown
deriving DecidableEq, Repr

/-- The machine right after reset (R32): registers 0, pc 0, not halted, counter 0, no cause. The spec leaves the memories' sizes and
contents open: log entries 1 and 2. The storage cell of x0: log entry 3. -/
def State.reset : State :=
  { regs := Vector.replicate 32 0#32
    pc := 0#32
    imem := { size := Config.resetImemSize, cells := [] }
    dmem := { size := Config.resetDmemSize, cells := [] }
    halted := false
    instructionCount := 0#64
    haltCause := .none }

end Sys2Proof.Machine
end

