-- ==== Sys2Proof/Machine/Ops.lean ====
section
/-! DEFINITION. The named operations over registers, memory and control state: the register file's reads and writes
(spec/10_state.md), the checked accesses of the memory subsystem (spec/20_memory.md), halting and raising a fault, which is what this
hardware has in the place of taking an exception (spec/60_exceptions.md R113, R117), and reset, the one way back (R118). -/

namespace Sys2Proof.Machine

/-! ## Registers and control state -/

/-- Register read x[i]: x0 is 0 whatever its storage cell holds (R15, R17). -/
def State.readReg (s : State) (i : RegIdx) : Word :=
  if i = 0#5 then 0#32 else s.regs[i.toNat]'i.isLt

/-- Register write x[i] <- v: discarded when i = 0 (R18). -/
def State.writeReg (i : RegIdx) (v : Word) (s : State) : State :=
  if i = 0#5 then s else { s with regs := s.regs.set i.toNat v i.isLt }

/-- pc <- target (R11, R22). -/
def State.setPc (target : Word) (s : State) : State := { s with pc := target }

/-- The count of one executed instruction, modulo 2^64 (R26, R101). -/
def State.countExecuted (s : State) : State := { s with instructionCount := s.instructionCount + 1#64 }

/-- The numeric code of a halt cause (R27). -/
def HaltCause.code : HaltCause → Nat
  | .none => 0
  | .haltWord => 1
  | .fault (.outOfBounds _ _ _) => 2
  | .fault (.misaligned _ _ _) => 3
  | .fault (.unknownOpcode _) => 4
  | .fault (.unknownFunction _ _) => 5
  | .pcOutOfRange => 6

/-- halt(c): the flag is set, and the cause is kept if one is recorded already (R27). -/
def State.halt (c : HaltCause) (s : State) : State :=
  { s with halted := true, haltCause := if s.haltCause = .none then c else s.haltCause }

/-- raise F(info): what stands here for taking an exception. It halts with the fault and changes nothing else: nothing is saved, no
mode changes, control goes nowhere (R113, R117). -/
def State.raise (f : FaultInfo) (s : State) : State := s.halt (.fault f)

/-- The host's reset, the one way out of a halt (R118, R127): x1 to x31, pc, the flag, the counter and the cause are cleared, the
memories and the storage cell of x0 are kept. -/
def State.hostReset (s : State) : State :=
  { s with
    regs := (Vector.replicate 32 0#32).set 0 s.regs[0]
    pc := 0#32
    halted := false
    instructionCount := 0#64
    haltCause := .none }

/-! ## The bytes of a memory -/

/-- What an address that is not listed reads as. DESIGN CHOICE, log entry 2: the list is a sparse form of a byte array that has a byte at
every address below its size, and every content of the array is some list. -/
def unlistedByte : Byte := 0x00#8

/-- The byte at an address of a list of cells. -/
def lookupCell : List Host.Cell → Nat → Byte
  | [], _ => unlistedByte
  | (k, v) :: cs, a => if k = a then v else lookupCell cs a

/-- A list of cells with the byte at an address changed; the canonical form is kept. -/
def storeCell : List Host.Cell → Nat → Byte → List Host.Cell
  | [], a, b => if b = unlistedByte then [] else [(a, b)]
  | (k, v) :: cs, a, b =>
    if a < k then
      if b = unlistedByte then (k, v) :: cs else (a, b) :: (k, v) :: cs
    else if a = k then
      if b = unlistedByte then cs else (a, b) :: cs
    else (k, v) :: storeCell cs a b

/-- The canonical form from an address on: addresses rise strictly, none reads as an unlisted one does, all are below the size. -/
def canonicalFrom (size : Nat) : Nat → List Host.Cell → Bool
  | _, [] => true
  | lo, (k, v) :: cs => decide (lo ≤ k) && decide (k < size) && decide (v ≠ unlistedByte) && canonicalFrom size (k + 1) cs

/-- A memory is well-formed: its size is legal (R8, D4) and its cells are in the canonical form. -/
def Memory.wf (m : Memory) : Bool :=
  decide (1 ≤ m.size) && decide (m.size ≤ Config.maxMemorySize) && canonicalFrom m.size 0 m.cells

/-- mem[a] (R40). -/
def Memory.get (m : Memory) (a : Nat) : Byte := lookupCell m.cells a

/-- mem[a] <- b (R40); there is no byte to write at or above the size. -/
def Memory.set (m : Memory) (a : Nat) (b : Byte) : Memory :=
  if a < m.size then { m with cells := storeCell m.cells a b } else m

/-- The n bytes from an address on. -/
def Memory.readBytes (m : Memory) (a : Nat) : Nat → List Byte
  | 0 => []
  | n + 1 => m.get a :: m.readBytes (a + 1) n

/-- Bytes written from an address on. -/
def Memory.writeBytes (m : Memory) (a : Nat) : List Byte → Memory
  | [] => m
  | b :: bs => (m.set a b).writeBytes (a + 1) bs

/-- The memory of this size whose byte at each address below it is the one a function gives: an arbitrary initial content (D5). -/
def Memory.ofContents (size : Nat) (content : Nat → Byte) : Memory :=
  { size := size
    cells := (List.range size).filterMap fun a => if content a = unlistedByte then none else some (a, content a) }

/-! ## The checked accesses -/

/-- The memory of a space. -/
def State.mem (s : State) : Space → Memory
  | .imem => s.imem
  | .dmem => s.dmem

/-- The state with the memory of a space changed; the other space is not touched (R38). -/
def State.setMem (sp : Space) (m : Memory) (s : State) : State :=
  match sp with
  | .imem => { s with imem := m }
  | .dmem => { s with dmem := m }

/-- The number of bytes of an access (R41). -/
def Width.bytes : Width → Nat
  | .byte => 1
  | .half => 2
  | .word => 4

/-- The two tests of a checked access, bounds first and in exact arithmetic (R43 to R46). -/
def State.accessFault (s : State) (sp : Space) (a : Addr) (w : Width) : Option FaultInfo :=
  if (s.mem sp).size ≤ a.toNat + w.bytes - 1 then some (.outOfBounds sp a w)
  else if 1 < w.bytes ∧ a.toNat % w.bytes ≠ 0 then some (.misaligned sp a w)
  else none

/-- MemRead (R44): the value of the access's bytes, little-endian; on a fault 0, and the fault is raised (R49). -/
def State.memRead (sp : Space) (a : Addr) (w : Width) (s : State) : Nat × State :=
  match s.accessFault sp a w with
  | some f => (0, s.raise f)
  | none => (leValue ((s.mem sp).readBytes a.toNat w.bytes), s)

/-- MemWrite (R44): the value's bytes, little-endian; on a fault nothing is written and the fault is raised (R49). -/
def State.memWrite (sp : Space) (a : Addr) (w : Width) (v : Nat) (s : State) : State :=
  match s.accessFault sp a w with
  | some f => s.raise f
  | none => s.setMem sp ((s.mem sp).writeBytes a.toNat (leBytes w.bytes v))

/-- Instruction fetch (R51): a word read of the instruction memory at the pc. -/
def State.fetch (s : State) : Word × State :=
  (BitVec.ofNat 32 (s.memRead .imem s.pc .word).1, (s.memRead .imem s.pc .word).2)

/-! ## Committing a result -/

/-- Commit of a successful execution: the result to x[rd], and the pc advanced by 4 modulo 2^32 (R85). -/
def State.commit (rd : RegIdx) (result : Word) (s : State) : State :=
  (s.writeReg rd result).setPc (s.pc + 4#32)

/-- The instruction word w, of nbits bits, placed where the next fetch reads it. -/
def State.placeWord (s : State) (nbits w : Nat) : State :=
  s.setMem .imem (s.imem.writeBytes s.pc.toNat (leBytes 4 (w % 2 ^ nbits)))

end Sys2Proof.Machine
end

