-- ==== Sys2Proof/Machine/Operands.lean ====
section
/-! DEFINITION. The operand form of the hardware: two source registers and one destination register (spec/30_encoding.md R72), the shift
amount (spec/40_alu_rtype.md R87), and the shape all ten R-type instructions share (R85). -/

namespace Sys2Proof.Machine

/-- The shift amount: the low five bits of x[rs2] (R87). -/
def shiftAmount (b : Word) : Nat := (b &&& 0x1F#32).toNat

/-- The R-type instruction with this operation: both sources are read before the destination is written (R36), the result is
committed (R85), and nothing else changes (R86). It cannot fault. -/
def execRType (op : Word → Word → Word) (rd rs1 rs2 : RegIdx) (s : State) : Host.Outcome State Fault Refusal :=
  .next (s.commit rd (op (s.readReg rs1) (s.readReg rs2)))

end Sys2Proof.Machine
end

