-- ==== Sys2Proof/Machine/Arith.lean ====
section
/-! DEFINITION. ADD and SUB (spec/40_alu_rtype.md R88, R89). -/

namespace Sys2Proof.Machine

/-- ADD (R88): the sum modulo 2^32. -/
def execAdd (rd rs1 rs2 : RegIdx) (s : State) : Host.Outcome State Fault Refusal :=
  execRType (fun a b => a + b) rd rs1 rs2 s

/-- SUB (R89): the difference modulo 2^32. -/
def execSub (rd rs1 rs2 : RegIdx) (s : State) : Host.Outcome State Fault Refusal :=
  execRType (fun a b => a - b) rd rs1 rs2 s

end Sys2Proof.Machine
end

