-- ==== Sys2Proof/Machine/Flags.lean ====
section
/-! DEFINITION. The hardware has no flags (spec/10_state.md R28): no operation computes a carry, an overflow or a condition code. What it
has in their place is here: the truth value that SLT and SLTU write to a general register. -/

namespace Sys2Proof.Machine

/-- A truth value as a register value, 1 or 0 (R28, R91, R92). -/
def truthWord (b : Bool) : Word := if b then 1#32 else 0#32

/-- The signed comparison of two registers (R10, R91). -/
def signedLess (a b : Word) : Bool := decide (a.toInt < b.toInt)

/-- The unsigned comparison of two registers (R92). -/
def unsignedLess (a b : Word) : Bool := decide (a.toNat < b.toNat)

end Sys2Proof.Machine
end

