-- ==== Sys2Proof/Machine/Compare.lean ====
section
/-! DEFINITION. SLT and SLTU (spec/40_alu_rtype.md R91, R92). -/

namespace Sys2Proof.Machine

/-- SLT (R91): 1 if x[rs1] is below x[rs2] as two's complement, else 0; funct7 is not read. -/
def execSlt (rd rs1 rs2 : RegIdx) (_funct7 : Funct7) (s : State) : Host.Outcome State Fault Refusal :=
  execRType (fun a b => truthWord (signedLess a b)) rd rs1 rs2 s

/-- SLTU (R92): 1 if x[rs1] is below x[rs2] unsigned, else 0; funct7 is not read. -/
def execSltu (rd rs1 rs2 : RegIdx) (_funct7 : Funct7) (s : State) : Host.Outcome State Fault Refusal :=
  execRType (fun a b => truthWord (unsignedLess a b)) rd rs1 rs2 s

end Sys2Proof.Machine
end

