-- ==== Sys2Proof/Machine/Halt.lean ====
section
/-! DEFINITION. HALT, the halt word (spec/41_halt_and_sequencer.md R98). -/

namespace Sys2Proof.Machine

/-- HALT (R98): the machine halts with cause HaltWord, unless a cause is recorded already; the pc, the registers, the memories and the
counter stay. -/
def execHalt (s : State) : Host.Outcome State Fault Refusal :=
  .next (s.halt .haltWord)

end Sys2Proof.Machine
end

