-- ==== Sys2Proof/Machine/Logic.lean ====
section
/-! DEFINITION. XOR, OR and AND (spec/40_alu_rtype.md R93, R96, R97). -/

namespace Sys2Proof.Machine

/-- XOR (R93); funct7 is not read. -/
def execXor (rd rs1 rs2 : RegIdx) (_funct7 : Funct7) (s : State) : Host.Outcome State Fault Refusal :=
  execRType (fun a b => a ^^^ b) rd rs1 rs2 s

/-- OR (R96); funct7 is not read. -/
def execOr (rd rs1 rs2 : RegIdx) (_funct7 : Funct7) (s : State) : Host.Outcome State Fault Refusal :=
  execRType (fun a b => a ||| b) rd rs1 rs2 s

/-- AND (R97); funct7 is not read. -/
def execAnd (rd rs1 rs2 : RegIdx) (_funct7 : Funct7) (s : State) : Host.Outcome State Fault Refusal :=
  execRType (fun a b => a &&& b) rd rs1 rs2 s

end Sys2Proof.Machine
end

