-- ==== Sys2Proof/Machine/Shift.lean ====
section
/-! DEFINITION. SLL, SRL and SRA (spec/40_alu_rtype.md R90, R94, R95). -/

namespace Sys2Proof.Machine

/-- SLL (R90): bits shifted out above bit 31 are lost; funct7 is not read. -/
def execSll (rd rs1 rs2 : RegIdx) (_funct7 : Funct7) (s : State) : Host.Outcome State Fault Refusal :=
  execRType (fun a b => a <<< shiftAmount b) rd rs1 rs2 s

/-- SRL (R94): zeros fill from bit 31. -/
def execSrl (rd rs1 rs2 : RegIdx) (s : State) : Host.Outcome State Fault Refusal :=
  execRType (fun a b => a >>> shiftAmount b) rd rs1 rs2 s

/-- SRA (R95): copies of bit 31 fill from the left. -/
def execSra (rd rs1 rs2 : RegIdx) (s : State) : Host.Outcome State Fault Refusal :=
  execRType (fun a b => a.sshiftRight (shiftAmount b)) rd rs1 rs2 s

end Sys2Proof.Machine
end

