-- ==== Sys2Proof/Machine/Dispatch.lean ====
section
/-! DEFINITION. The meaning of each instruction, by one direct call. -/

namespace Sys2Proof.Machine

def exec (i : Instr) (s : State) : Host.Outcome State Fault Refusal :=
  match i with
  | .add rd rs1 rs2 => Sys2Proof.Machine.execAdd rd rs1 rs2 s
  | .sub rd rs1 rs2 => Sys2Proof.Machine.execSub rd rs1 rs2 s
  | .sll rd rs1 rs2 f => Sys2Proof.Machine.execSll rd rs1 rs2 f s
  | .slt rd rs1 rs2 f => Sys2Proof.Machine.execSlt rd rs1 rs2 f s
  | .sltu rd rs1 rs2 f => Sys2Proof.Machine.execSltu rd rs1 rs2 f s
  | .xor rd rs1 rs2 f => Sys2Proof.Machine.execXor rd rs1 rs2 f s
  | .srl rd rs1 rs2 => Sys2Proof.Machine.execSrl rd rs1 rs2 s
  | .sra rd rs1 rs2 => Sys2Proof.Machine.execSra rd rs1 rs2 s
  | .or rd rs1 rs2 f => Sys2Proof.Machine.execOr rd rs1 rs2 f s
  | .and rd rs1 rs2 f => Sys2Proof.Machine.execAnd rd rs1 rs2 f s
  | .halt => Sys2Proof.Machine.execHalt s

end Sys2Proof.Machine
end

