-- ==== Sys2Proof/Machine/Sequencer.lean ====
section
/-! DEFINITION. The execution engine on a Decoded Instruction (spec/40_alu_rtype.md R83, R84) and what the PC controller does with a
fetched word (spec/41_halt_and_sequencer.md R100, R101). -/

namespace Sys2Proof.Machine

/-- The fault a rejected word raises in the execute stage (R83, R84, R112). -/
def rejectFault : Reject → FaultInfo
  | .unknownOpcode op => .unknownOpcode op
  | .unknownFunction f3 f7 => .unknownFunction f3 f7

/-- The engine's contract execute(d): the opcode test (R83), the function dispatch (R84), then the instruction (R85). On a fault no
register and no pc changes. -/
def executeDecoded (d : DecodedInstr) (s : State) : Host.Outcome State Fault Refusal :=
  match d.toInstr with
  | .ok i => exec i s
  | .error r => .next (s.raise (rejectFault r))

/-- The controller's count, after the engine returns and whether it halted the machine or not (R101). -/
def countAfter : Host.Outcome State Fault Refusal → Host.Outcome State Fault Refusal
  | .next t => .next t.countExecuted
  | .fault r => .fault r
  | .refused r => .refused r

/-- A step from the fetched word on (R100): the halt test, or else decode, execute and count. A fetch that faulted gives the word 0 and
takes the halt word's path, where the first cause is kept (R98). -/
def stepFetched (w : Word) (s : State) : Host.Outcome State Fault Refusal :=
  if w = haltWord then exec .halt s else countAfter (executeDecoded (decodeFields w) s)

/-- step() in full (R100): nothing when halted, else fetch and go on with the word. -/
def stepOnce (s : State) : Host.Outcome State Fault Refusal :=
  if s.halted then .next s else stepFetched s.fetch.1 s.fetch.2

end Sys2Proof.Machine
end

