-- ==== Sys2Proof/Machine/Step.lean ====
section
/-! DEFINITION. One step of the machine: the transaction step() (spec/41_halt_and_sequencer.md R100), and the placing of an instruction
where the next step fetches it. -/

namespace Sys2Proof.Machine

/-- step() (R100). It makes no PC out-of-range check, which is `run`'s alone (R103, R108). -/
def step (s : State) : Host.Outcome State Fault Refusal := stepOnce s

/-- The instruction whose bits are w stored at the pc in the instruction memory (log entry 6). -/
def State.withFetchWord (s : State) (nbits w : Nat) : State := s.placeWord nbits w

end Sys2Proof.Machine
end

