-- ==== Sys2Proof/Machine/Run.lean ====
section
/-! DEFINITION. The run loop (spec/41_halt_and_sequencer.md R102, R103), over a number of iterations: `run` itself need not end (R105,
I13; log entry 7). -/

namespace Sys2Proof.Machine

/-- `run`'s check after each step: halt when the pc is at or above IMEM_SIZE, in exact arithmetic (R103). -/
def State.pcCheck (s : State) : State :=
  if s.imem.size ≤ s.pc.toNat then s.halt .pcOutOfRange else s

/-- One iteration of the loop of `run`: a step, then the check (R102). -/
def runIteration (s : State) : Host.Outcome State Fault Refusal :=
  match step s with
  | .next t => .next t.pcCheck
  | .fault r => .fault r
  | .refused r => .refused r

/-- The state `run` returns, if it returns within a number of iterations; none where it has not returned yet (R102). -/
def runWithin : Nat → State → Option State
  | 0, s => if s.halted then some s else none
  | k + 1, s =>
    if s.halted then some s
    else
      match runIteration s with
      | .next t => runWithin k t
      | .fault _ => none
      | .refused _ => none

end Sys2Proof.Machine
end

