-- ==== Sys2Proof/Machine/HostPort.lean ====
section
/-! DEFINITION. The host's operations (spec/00_scope.md R4): the register port and the accessors of control state (spec/10_state.md R19,
R20, R33, R34), the checked memory accessors (spec/20_memory.md R41), the loaders and the raw read (R55 to R57), construction and
teardown (spec/70_reset_and_hazards.md R126, R128), and all state-changing ones as one type of transaction (R6). -/

namespace Sys2Proof.Machine

/-! ## The register port -/

/-- The status a host register access returns (R19, R20). An invalid index is an error result, not a fault (R114). -/
inductive RegStatus where
  | ok
  | invalidRegister
deriving DecidableEq, Repr

/-- An index that names a register (R19, R20). -/
def validRegIndex (index : Int) : Bool := decide (0 ≤ index ∧ index ≤ 31)

/-- A host's index as an instruction's index, for a valid one. -/
def regOfIndex (index : Int) : RegIdx := BitVec.ofNat 5 index.toNat

/-- get_register (R19). -/
def getRegister (index : Int) (s : State) : Word × RegStatus :=
  if validRegIndex index then (s.readReg (regOfIndex index), .ok) else (0#32, .invalidRegister)

/-- set_register (R20): index 0 succeeds and changes nothing. -/
def setRegister (index : Int) (v : Word) (s : State) : RegStatus × State :=
  if validRegIndex index then (.ok, s.writeReg (regOfIndex index) v) else (.invalidRegister, s)

/-! ## Control state (R33, R34) -/

/-- get_pc. -/
def getPc (s : State) : Word := s.pc

/-- should_halt. -/
def shouldHalt (s : State) : Bool := s.halted

/-- instruction_count. -/
def getInstructionCount (s : State) : Count := s.instructionCount

/-- fault_reason. -/
def faultReason (s : State) : HaltCause := s.haltCause

/-- set_pc (R34): any value, unchecked. -/
def hostSetPc (v : Word) (s : State) : State := s.setPc v

/-! ## The checked memory accessors (R41) -/

/-- read_word. -/
def readWord (sp : Space) (a : Addr) (s : State) : Word × State :=
  (BitVec.ofNat 32 (s.memRead sp a .word).1, (s.memRead sp a .word).2)

/-- read_halfword. -/
def readHalfword (sp : Space) (a : Addr) (s : State) : Half × State :=
  (BitVec.ofNat 16 (s.memRead sp a .half).1, (s.memRead sp a .half).2)

/-- read_byte. -/
def readByte (sp : Space) (a : Addr) (s : State) : Byte × State :=
  (BitVec.ofNat 8 (s.memRead sp a .byte).1, (s.memRead sp a .byte).2)

/-- write_word. -/
def writeWord (sp : Space) (a : Addr) (v : Word) (s : State) : State := s.memWrite sp a .word v.toNat

/-- write_halfword. -/
def writeHalfword (sp : Space) (a : Addr) (v : Half) (s : State) : State := s.memWrite sp a .half v.toNat

/-- write_byte. -/
def writeByte (sp : Space) (a : Addr) (v : Byte) (s : State) : State := s.memWrite sp a .byte v.toNat

/-- A write accessor given a value of any size: one that does not fit the accessor's width is refused (R41, D13, I15). -/
def hostWrite (sp : Space) (a : Addr) (w : Width) (v : Nat) (s : State) : Host.Outcome State Fault Refusal :=
  if v < 2 ^ (8 * w.bytes) then .next (s.memWrite sp a w v) else .refused .valueTooWide

/-- The diagnostic raw read (R57): the byte, or a refusal outside the array; no state changes. -/
def rawRead (sp : Space) (a : Nat) (s : State) : Except Refusal Byte :=
  if a < (s.mem sp).size then .ok ((s.mem sp).get a) else .error .rawReadOutOfBounds

/-! ## The loaders -/

/-- The words of a program written one after the other; a word whose span would leave the memory is skipped (R55). -/
def loadWordsFrom (m : Memory) (a : Nat) : List Word → Memory
  | [] => m
  | w :: ws => loadWordsFrom (if a + 3 < m.size then m.writeBytes a (leBytes 4 w.toNat) else m) (a + 4) ws

/-- load_program (R55): the words from address 0 on, then pc <- 0; nothing else changes. -/
def loadProgram (ws : List Word) (s : State) : State :=
  (s.setMem .imem (loadWordsFrom s.imem 0 ws)).setPc 0#32

/-- The status of a file load (R56). -/
inductive LoadStatus where
  | ok
  | rejected
deriving DecidableEq, Repr

/-- load_file (R56): bytes from address 0 on; more bytes than the memory has are rejected with no change. Whether the pc is set to 0 is
the OPEN parameter FILE_LOAD_SETS_PC0. -/
def loadFile (bs : List Byte) (s : State) : LoadStatus × State :=
  if s.imem.size < bs.length then (.rejected, s)
  else
    (.ok, if Config.fileLoadSetsPc0 then (s.setMem .imem (s.imem.writeBytes 0 bs)).setPc 0#32
          else s.setMem .imem (s.imem.writeBytes 0 bs))

/-! ## Construction and teardown -/

/-- A legal memory size (R8, R126, D4). -/
def legalSize (n : Nat) : Bool := decide (1 ≤ n ∧ n ≤ Config.maxMemorySize)

/-- The state of construction (R126, R32): the given sizes and contents, everything else at its reset value. -/
def constructed (isz dsz : Nat) (imemInit dmemInit : Nat → Byte) : State :=
  { regs := Vector.replicate 32 0#32
    pc := 0#32
    imem := Memory.ofContents isz imemInit
    dmem := Memory.ofContents dsz dmemInit
    halted := false
    instructionCount := 0#64
    haltCause := .none }

/-- init (R126), given the OPEN contents and whether the allocation succeeds. A failure gives no machine (R63, R115). -/
def initMachine (allocates : Bool) (isz dsz : Nat) (imemInit dmemInit : Nat → Byte) : Host.Outcome State Fault Refusal :=
  if !(legalSize isz && legalSize dsz) then .refused .illegalMemorySize
  else if !allocates then .refused .allocationFailed
  else .next (constructed isz dsz imemInit dmemInit)

/-! ## Transactions -/

/-- The transactions on a live machine that can change its state (R6, R23, R24): the controller's and the host's. `run` is a sequence of
iterations (R102). -/
inductive Transaction where
  | step
  | iterate
  | reset
  | setPc (v : Word)
  | setRegister (index : Int) (v : Word)
  | read (sp : Space) (a : Addr) (w : Width)
  | write (sp : Space) (a : Addr) (w : Width) (v : Nat)
  | loadProgram (ws : List Word)
  | loadFile (bs : List Byte)
deriving DecidableEq, Repr

/-- An iteration of `run`'s loop, which is not entered on a halted machine (R102, R104). -/
def iterateRun (s : State) : Host.Outcome State Fault Refusal := if s.halted then .next s else runIteration s

/-- The state after a transaction. -/
def transact (t : Transaction) (s : State) : Host.Outcome State Fault Refusal :=
  match t with
  | .step => step s
  | .iterate => iterateRun s
  | .reset => .next s.hostReset
  | .setPc v => .next (hostSetPc v s)
  | .setRegister index v => .next (setRegister index v s).2
  | .read sp a w => .next (s.memRead sp a w).2
  | .write sp a w v => hostWrite sp a w v s
  | .loadProgram ws => .next (loadProgram ws s)
  | .loadFile bs => .next (loadFile bs s).2

/-- Whether a machine exists (R128). -/
inductive Lifecycle where
  | live (s : State)
  | tornDown
deriving DecidableEq, Repr

/-- teardown (R128): no machine exists afterwards; again, it does nothing. -/
def teardown (_ : Lifecycle) : Lifecycle := .tornDown

/-- A transaction on a machine that may be torn down: then every one is refused (R128, D16). -/
def transactLive (t : Transaction) : Lifecycle → Host.Outcome Lifecycle Fault Refusal
  | .tornDown => .refused .tornDown
  | .live s =>
    match transact t s with
    | .next s' => .next (.live s')
    | .fault r => .fault r
    | .refused r => .refused r

end Sys2Proof.Machine
end

