-- ==== Sys2Proof/Safety.lean ====
section
/-! DEFINITION. What counts as a good state and a safe run, in the words the statements use. -/

namespace Sys2Proof.Machine

/-- The state's own invariant (spec/10_state.md R24, R27; spec/20_memory.md R38, R40). -/
structure State.Inv (s : State) : Prop where
  /-- The instruction memory has a legal size and is in the canonical form. -/
  imemWf : s.imem.wf = true
  /-- The data memory has a legal size and is in the canonical form. -/
  dmemWf : s.dmem.wf = true
  /-- The machine is halted exactly when a cause is recorded. -/
  causeRecorded : s.halted = true ↔ s.haltCause ≠ .none

/-- The next fetch succeeds: the pc is aligned and its word is inside the instruction memory (R22). -/
def State.fetchable (s : State) : Bool :=
  decide (s.pc.toNat % 4 = 0) && decide (s.pc.toNat + 3 < s.imem.size)

/-- The machine halted because the program ended: the halt word, or the end of instruction memory under `run` (R98, R103). -/
def State.endedWell (s : State) : Bool := s.halted && (s.haltCause == .haltWord || s.haltCause == .pcOutOfRange)

/-- The machine halted on a fault (R112). -/
def State.faulted (s : State) : Bool :=
  match s.haltCause with
  | .fault _ => s.halted
  | .none => false
  | .haltWord => false
  | .pcOutOfRange => false

/-- The word a fetch at the pc delivers when it succeeds. -/
def State.nextWord (s : State) : Word := BitVec.ofNat 32 (leValue (s.imem.readBytes s.pc.toNat 4))

/-- The two's-complement reading of a register value, signed(v) (R10). -/
def signedValue (v : Word) : Int := if v.toNat < 2 ^ 31 then (v.toNat : Int) else (v.toNat : Int) - 2 ^ 32

/-- From s to t one R-type instruction has committed v, a number below 2^32, to x[rd] and advanced the pc by 4, and nothing else has
changed: every other register, every byte of both memories, the flag, the counter and the cause are as before (R85, R86). Where rd is 0
nothing is written, and x0 reads 0. The wrap of the pc at 2^32 is the spec's own decision D9 and is not said here; it is in
Obligations.EngineWritesOnlyItsOwn and Obligations.PcAdvancesOrTheMachineHalts. -/
def CommitsOnly (s t : State) (rd : RegIdx) (v : Nat) : Prop :=
  (t.readReg rd).toNat = (if rd = 0 then 0 else v) ∧
  (∀ r, r ≠ rd → t.readReg r = s.readReg r) ∧
  (s.pc.toNat + 4 < 2 ^ 32 → t.pc.toNat = s.pc.toNat + 4) ∧
  (∀ sp a, (t.mem sp).get a = (s.mem sp).get a) ∧
  (∀ sp, (t.mem sp).size = (s.mem sp).size) ∧
  t.halted = s.halted ∧ t.instructionCount = s.instructionCount ∧ t.haltCause = s.haltCause

/-- From s to t the registers, the pc and the instruction counter have not changed. -/
def SameRegsPcCount (s t : State) : Prop :=
  (∀ r, t.readReg r = s.readReg r) ∧ t.pc = s.pc ∧ t.instructionCount = s.instructionCount

/-- s and t differ at most in the storage cell of x0 (R15). -/
def SameVisible (s t : State) : Prop :=
  (∀ r, t.readReg r = s.readReg r) ∧ t.pc = s.pc ∧ t.imem = s.imem ∧ t.dmem = s.dmem ∧ t.halted = s.halted ∧
  t.instructionCount = s.instructionCount ∧ t.haltCause = s.haltCause

/-- `run` from s returns t (R102). -/
def RunsTo (s t : State) : Prop := ∃ k, runWithin k s = some t

/-- `run` from s never returns (R105, I13). -/
def RunsForever (s : State) : Prop := ∀ k, runWithin k s = none

/-- A run of transactions, each answering a next state. -/
inductive Reaches : State → State → Prop where
  | refl (s : State) : Reaches s s
  | tail {s t u : State} (x : Transaction) : Reaches s t → transact x t = .next u → Reaches s u

end Sys2Proof.Machine
end

