-- ==== Sys2Proof/Certificates/Slice0/Obligations.lean ====
section
/-! DEFINITION. The statements for the provers, in the order of the spec's files. -/

open Sys2Proof Sys2Proof.Machine

/-! ## Encoding (spec/30_encoding.md) -/

/-- Words written out in spec/95_test_vectors.md (sections 1, 2.3 and 2.4) decode to what they stand for. -/
def Obligations.DecodesTheSpecsWords : Prop :=
  decode 0x003100B3#32 = .ok (.add 1 2 3) ∧ decode 0x40218433#32 = .ok (.sub 8 3 2) ∧
  decode 0x007312B3#32 = .ok (.sll 5 6 7 0) ∧ decode 0xFE7322B3#32 = .ok (.slt 5 6 7 0x7F) ∧
  decode 0x007332B3#32 = .ok (.sltu 5 6 7 0) ∧ decode 0x007342B3#32 = .ok (.xor 5 6 7 0) ∧
  decode 0x007352B3#32 = .ok (.srl 5 6 7) ∧ decode 0x407352B3#32 = .ok (.sra 5 6 7) ∧
  decode 0x007362B3#32 = .ok (.or 5 6 7 0) ∧ decode 0x007372B3#32 = .ok (.and 5 6 7 0) ∧
  decode 0x00000000#32 = .ok .halt ∧
  decode 0x00108093#32 = .error (.unknownOpcode 0x13) ∧ decode 0x027302B3#32 = .error (.unknownFunction 0 1)

/-- R67: each field is the word shifted and masked as the source gives it, which is the word's bits at the field's place. -/
def Obligations.FieldsAreShiftedAndMasked : Prop :=
  ∀ w : Word,
    (opcodeField w).setWidth 32 = w &&& 0x7F#32 ∧
    (rdField w).setWidth 32 = (w >>> 7) &&& 0x1F#32 ∧
    (funct3Field w).setWidth 32 = (w >>> 12) &&& 0x7#32 ∧
    (rs1Field w).setWidth 32 = (w >>> 15) &&& 0x1F#32 ∧
    (rs2Field w).setWidth 32 = (w >>> 20) &&& 0x1F#32 ∧
    (funct7Field w).setWidth 32 = (w >>> 25) &&& 0x7F#32 ∧
    (∀ j, j < 7 → (opcodeField w).getLsbD j = w.getLsbD j ∧ (funct7Field w).getLsbD j = w.getLsbD (25 + j)) ∧
    (∀ j, j < 3 → (funct3Field w).getLsbD j = w.getLsbD (12 + j)) ∧
    (∀ j, j < 5 → (rdField w).getLsbD j = w.getLsbD (7 + j) ∧ (rs1Field w).getLsbD j = w.getLsbD (15 + j) ∧
      (rs2Field w).getLsbD j = w.getLsbD (20 + j))

/-- R68, R69: the format is a function of the opcode alone; R-type has the five fields and immediate 0. With them the Unknown
format: the rest is zeroed, and the opcode is kept, which is the spec's own decision D21; and every Decoded Instruction of the
decoder is well-formed. -/
def Obligations.DecoderGivesTheTwoFormats : Prop :=
  ∀ w : Word,
    (decodeFields w).opcode = opcodeField w ∧ (decodeFields w).imm = 0 ∧ (decodeFields w).wellFormed = true ∧
    (opcodeField w = 0x33 →
      (decodeFields w).format = .rType ∧ (decodeFields w).rd = rdField w ∧ (decodeFields w).rs1 = rs1Field w ∧
      (decodeFields w).rs2 = rs2Field w ∧ (decodeFields w).funct3 = funct3Field w ∧ (decodeFields w).funct7 = funct7Field w) ∧
    (opcodeField w ≠ 0x33 →
      (decodeFields w).format = .unknown ∧ (decodeFields w).rd = 0 ∧ (decodeFields w).rs1 = 0 ∧
      (decodeFields w).rs2 = 0 ∧ (decodeFields w).funct3 = 0 ∧ (decodeFields w).funct7 = 0)

/-- R71: the decoded fields of an R-type word, shifted to their places and joined, are the word. -/
def Obligations.DecodedFieldsRebuildTheWord : Prop :=
  ∀ w : Word, (decodeFields w).opcode = 0x33 →
    w = ((decodeFields w).funct7.setWidth 32 <<< 25) ||| ((decodeFields w).rs2.setWidth 32 <<< 20) |||
      ((decodeFields w).rs1.setWidth 32 <<< 15) ||| ((decodeFields w).funct3.setWidth 32 <<< 12) |||
      ((decodeFields w).rd.setWidth 32 <<< 7) ||| (decodeFields w).opcode.setWidth 32

/-- Decode and encode agree: the word of every well-formed instruction, with every operand at every value, decodes to it.
That six of the constructors have a funct7 to give back is the model's choice of syntax (log entry 16). -/
def Obligations.DecodeOfEncodeIsTheInstruction : Prop :=
  ∀ i : Instr, i.wellFormed = true → decode (encode i) = .ok i

/-- The other direction: a word that decodes to an instruction is that instruction's word, so that no two words are one instruction.
For the six rows whose funct7 is any this is the model's choice (log entry 16): their constructors keep funct7, where by R73 and R76
128 words select one operation. -/
def Obligations.EncodeOfDecodeIsTheWord : Prop :=
  ∀ (w : Word) (i : Instr), decode w = .ok i → encode i = w

/-- The opcode map (R73, whose match and mask pairs the spec marks as derived): a word is an instruction exactly when a row of the
opcode table selects it; the row is the instruction's, and the only one. -/
def Obligations.OpcodeTableSelectsTheInstruction : Prop :=
  ∀ w : Word,
    (∀ i, decode w = .ok i →
      ∃ row ∈ opcodeTable, row.selects w = true ∧ row.mnemonic = i.mnemonic ∧
        ∀ row' ∈ opcodeTable, row'.selects w = true → row' = row) ∧
    (∀ r, decode w = .error r → ∀ row ∈ opcodeTable, row.selects w = false)

/-- R76: for the six "any" function codes every funct7 selects the operation; funct7 = 0x01 with funct3 0 or 5 is UnknownFunction.
-/
def Obligations.AnyFunct7SelectsTheOperation : Prop :=
  ∀ (f7 : Funct7) (rs2 rs1 rd : RegIdx),
    decode (encodeFields f7 rs2 rs1 0x1 rd 0x33) = .ok (.sll rd rs1 rs2 f7) ∧
    decode (encodeFields f7 rs2 rs1 0x2 rd 0x33) = .ok (.slt rd rs1 rs2 f7) ∧
    decode (encodeFields f7 rs2 rs1 0x3 rd 0x33) = .ok (.sltu rd rs1 rs2 f7) ∧
    decode (encodeFields f7 rs2 rs1 0x4 rd 0x33) = .ok (.xor rd rs1 rs2 f7) ∧
    decode (encodeFields f7 rs2 rs1 0x6 rd 0x33) = .ok (.or rd rs1 rs2 f7) ∧
    decode (encodeFields f7 rs2 rs1 0x7 rd 0x33) = .ok (.and rd rs1 rs2 f7) ∧
    decode (encodeFields 0x01 rs2 rs1 0x0 rd 0x33) = .error (.unknownFunction 0x0 0x01) ∧
    decode (encodeFields 0x01 rs2 rs1 0x5 rd 0x33) = .error (.unknownFunction 0x5 0x01)

/-- The bytes of an instruction, first byte at the lowest address, decode to it and leave the bytes after them; fewer than four
bytes hold no instruction. -/
def Obligations.BytesDecodeToTheInstruction : Prop :=
  ∀ (i : Instr) (rest : List Byte), i.wellFormed = true →
    decodeBytes (encodeBytes i ++ rest) = .ok (i, rest) ∧
    (rest.length < 4 → decodeBytes rest = .error .tooShort)

/-- The spec's own assembler (R82, its decision D25): an assembled instruction's word is the formula of the rule with the function
codes of the table, and decodes to it. -/
def Obligations.AssembledWordIsTheFormula : Prop :=
  encode .halt = 0x00000000#32 ∧
  ∀ (op : AluOp) (rd rs1 rs2 : RegIdx),
    encode (assemble op rd rs1 rs2) =
      (op.funct7.setWidth 32 <<< 25) ||| (rs2.setWidth 32 <<< 20) ||| (rs1.setWidth 32 <<< 15) |||
        (op.funct3.setWidth 32 <<< 12) ||| (rd.setWidth 32 <<< 7) ||| 0x33#32 ∧
    select op.funct3 op.funct7 = some op

/-! ## Registers (spec/10_state.md) -/

/-- R17, R18: x0 reads 0 and discards writes; any other register reads its own storage, which a write sets; a write changes nothing
else. -/
def Obligations.RegisterReadAndWrite : Prop :=
  ∀ (i : RegIdx) (v : Word) (s : State),
    s.readReg 0 = 0 ∧ (i ≠ 0 → s.readReg i = s.regs[i.toNat]'i.isLt) ∧
    (i = 0 → s.writeReg i v = s) ∧ (i ≠ 0 → (s.writeReg i v).readReg i = v) ∧
    (∀ j, j ≠ i → (s.writeReg i v).readReg j = s.readReg j) ∧
    (s.writeReg i v).pc = s.pc ∧ (s.writeReg i v).imem = s.imem ∧ (s.writeReg i v).dmem = s.dmem ∧
    (s.writeReg i v).halted = s.halted ∧ (s.writeReg i v).instructionCount = s.instructionCount ∧
    (s.writeReg i v).haltCause = s.haltCause

/-- R15, R31: no transaction can observe the storage cell of x0: from states that differ only there, every transaction gives states
that differ only there, or the same refusal. -/
def Obligations.ZeroCellIsUnobservable : Prop :=
  ∀ (x : Transaction) (s s' : State), SameVisible s s' →
    (∃ t t', transact x s = .next t ∧ transact x s' = .next t' ∧ SameVisible t t') ∨
    (∃ r, transact x s = .refused r ∧ transact x s' = .refused r)

/-- The host's register port (R19, R20), for any integer index; the index's type and the form of the error are the spec's decision
D8. -/
def Obligations.HostRegisterPort : Prop :=
  ∀ (index : Int) (v : Word) (s : State),
    (0 ≤ index ∧ index ≤ 31 → getRegister index s = (s.readReg (BitVec.ofInt 5 index), .ok)) ∧
    (¬(0 ≤ index ∧ index ≤ 31) → getRegister index s = (0, .invalidRegister)) ∧
    (1 ≤ index ∧ index ≤ 31 → setRegister index v s = (.ok, s.writeReg (BitVec.ofInt 5 index) v)) ∧
    (index = 0 → setRegister index v s = (.ok, s)) ∧
    (¬(0 ≤ index ∧ index ≤ 31) → setRegister index v s = (.invalidRegister, s))

/-- set_pc (R34, the spec's decision D18) writes any value, unchecked, and nothing else; a bad value is caught by the next fetch
(R45, R46, R51). Where a value fails both tests of the fetch, that the cause is OutOfBounds is the spec's decision D3 (log entry 9). -/
def Obligations.SetPcIsUnchecked : Prop :=
  ∀ (v : Word) (s : State),
    (hostSetPc v s).pc = v ∧ (∀ r, (hostSetPc v s).readReg r = s.readReg r) ∧ (hostSetPc v s).imem = s.imem ∧
    (hostSetPc v s).dmem = s.dmem ∧ (hostSetPc v s).halted = s.halted ∧
    (hostSetPc v s).instructionCount = s.instructionCount ∧ (hostSetPc v s).haltCause = s.haltCause ∧
    (s.halted = false → s.haltCause = .none → s.imem.size ≤ v.toNat + 3 →
      ∃ t, step (hostSetPc v s) = .next t ∧ t.halted = true ∧ t.haltCause = .fault (.outOfBounds .imem v .word)) ∧
    (s.halted = false → s.haltCause = .none → v.toNat + 3 < s.imem.size → v.toNat % 4 ≠ 0 →
      ∃ t, step (hostSetPc v s) = .next t ∧ t.halted = true ∧ t.haltCause = .fault (.misaligned .imem v .word))

/-! ## Memory (spec/20_memory.md) -/

/-- R38: construction sets the size of each memory and no transaction changes it; the two do not alias: whatever is written to one
space, by an accessor or a loader, leaves the other. -/
def Obligations.MemoriesAreFixedAndDisjoint : Prop :=
  (∀ allocates isz dsz fi fd t, initMachine allocates isz dsz fi fd = .next t → t.imem.size = isz ∧ t.dmem.size = dsz) ∧
  (∀ (x : Transaction) (s t : State), transact x s = .next t → t.imem.size = s.imem.size ∧ t.dmem.size = s.dmem.size) ∧
  (∀ (s : State) (sp sp' : Space) (a : Addr) (w : Width) (v : Nat), sp' ≠ sp → (s.memWrite sp a w v).mem sp' = s.mem sp') ∧
  (∀ (s : State) (ws : List Word) (bs : List Byte), (loadProgram ws s).dmem = s.dmem ∧ (loadFile bs s).2.dmem = s.dmem)

/-- R45, R46, R49: where a checked access fails, by its bounds or its alignment, a read returns 0, a write is dropped, the machine
halts with the fault as its cause if none is recorded, and nothing else changes; where it does not fail, it does not halt. (Which
fault is named when both tests fail is the spec's decision D3 and is not said here.) -/
def Obligations.FailingAccessHaltsAndDoesNothing : Prop :=
  ∀ (s : State) (sp : Space) (a : Addr) (w : Width) (v : Nat),
    ((s.mem sp).size ≤ a.toNat + w.bytes - 1 ∨ (1 < w.bytes ∧ a.toNat % w.bytes ≠ 0) →
      ∃ t, s.memRead sp a w = (0, t) ∧ s.memWrite sp a w v = t ∧ t.halted = true ∧
        (s.haltCause ≠ .none → t.haltCause = s.haltCause) ∧
        (s.haltCause = .none →
          t.haltCause = .fault (.outOfBounds sp a w) ∨ t.haltCause = .fault (.misaligned sp a w)) ∧
        (s.haltCause = .none → a.toNat % w.bytes = 0 → t.haltCause = .fault (.outOfBounds sp a w)) ∧
        (s.haltCause = .none → a.toNat + w.bytes - 1 < (s.mem sp).size → t.haltCause = .fault (.misaligned sp a w)) ∧
        SameRegsPcCount s t ∧ t.imem = s.imem ∧ t.dmem = s.dmem) ∧
    (¬((s.mem sp).size ≤ a.toNat + w.bytes - 1 ∨ (1 < w.bytes ∧ a.toNat % w.bytes ≠ 0)) →
      (s.memRead sp a w).2.halted = s.halted ∧ (s.memWrite sp a w v).halted = s.halted)

/-- The checked read (R42 to R44; the order of the tests and the exact arithmetic are the spec's decision D3): bounds first and in
exact arithmetic, then alignment, then the little-endian sum of the bytes. -/
def Obligations.CheckedReadPrimitive : Prop :=
  ∀ (s : State) (sp : Space) (a : Addr) (w : Width),
    ((s.mem sp).size ≤ a.toNat + w.bytes - 1 → s.memRead sp a w = (0, s.raise (.outOfBounds sp a w))) ∧
    (a.toNat + w.bytes - 1 < (s.mem sp).size → 1 < w.bytes → a.toNat % w.bytes ≠ 0 →
      s.memRead sp a w = (0, s.raise (.misaligned sp a w))) ∧
    (a.toNat + w.bytes - 1 < (s.mem sp).size → w.bytes = 1 ∨ a.toNat % w.bytes = 0 →
      s.memRead sp a w = (∑ k ∈ Finset.range w.bytes, ((s.mem sp).get (a.toNat + k)).toNat * 2 ^ (8 * k), s))

/-- The checked write (R42 to R44; D3 as for the read): the same two tests, then byte k of the value to address a + k, and nothing
else. -/
def Obligations.CheckedWritePrimitive : Prop :=
  ∀ (s : State) (sp : Space) (a : Addr) (w : Width) (v : Nat),
    ((s.mem sp).size ≤ a.toNat + w.bytes - 1 → s.memWrite sp a w v = s.raise (.outOfBounds sp a w)) ∧
    (a.toNat + w.bytes - 1 < (s.mem sp).size → 1 < w.bytes → a.toNat % w.bytes ≠ 0 →
      s.memWrite sp a w v = s.raise (.misaligned sp a w)) ∧
    ((s.mem sp).wf = true → a.toNat + w.bytes - 1 < (s.mem sp).size → w.bytes = 1 ∨ a.toNat % w.bytes = 0 →
      (∀ k, k < w.bytes → ((s.memWrite sp a w v).mem sp).get (a.toNat + k) = BitVec.ofNat 8 (v / 2 ^ (8 * k))) ∧
      (∀ a', a' < a.toNat ∨ a.toNat + w.bytes ≤ a' → ((s.memWrite sp a w v).mem sp).get a' = (s.mem sp).get a') ∧
      (∀ sp', sp' ≠ sp → (s.memWrite sp a w v).mem sp' = s.mem sp') ∧
      SameRegsPcCount s (s.memWrite sp a w v) ∧ (s.memWrite sp a w v).halted = s.halted ∧
      (s.memWrite sp a w v).haltCause = s.haltCause)

/-- R50: a write and then a read of the same width at the same legal address gives the value back, for the word, halfword and byte
accessors; a successful write changes only the addressed bytes of the addressed memory; a successful read changes no state. -/
def Obligations.ReadAfterWriteGivesTheValue : Prop :=
  ∀ (s : State) (sp : Space) (a : Addr), (s.mem sp).wf = true →
    (∀ v : Word, a.toNat % 4 = 0 → a.toNat + 3 < (s.mem sp).size →
      readWord sp a (writeWord sp a v s) = (v, writeWord sp a v s)) ∧
    (∀ v : Half, a.toNat % 2 = 0 → a.toNat + 1 < (s.mem sp).size →
      readHalfword sp a (writeHalfword sp a v s) = (v, writeHalfword sp a v s)) ∧
    (∀ v : Byte, a.toNat < (s.mem sp).size →
      readByte sp a (writeByte sp a v s) = (v, writeByte sp a v s)) ∧
    (∀ (w : Width) (v : Nat), a.toNat % w.bytes = 0 → a.toNat + w.bytes ≤ (s.mem sp).size →
      (s.memRead sp a w).2 = s ∧
      (∀ a', a' < a.toNat ∨ a.toNat + w.bytes ≤ a' → ((s.memWrite sp a w v).mem sp).get a' = (s.mem sp).get a') ∧
      (∀ sp', sp' ≠ sp → (s.memWrite sp a w v).mem sp' = s.mem sp') ∧ SameRegsPcCount s (s.memWrite sp a w v) ∧
      (s.memWrite sp a w v).halted = s.halted ∧ (s.memWrite sp a w v).haltCause = s.haltCause)

/-- The mixed-width view (R53, which the spec derives): after a word is written at a legal address, the halfword and byte accessors
see its parts in little-endian order. -/
def Obligations.MixedWidthView : Prop :=
  ∀ (s : State) (sp : Space) (a : Addr) (v : Word), (s.mem sp).wf = true → a.toNat % 4 = 0 → a.toNat + 3 < (s.mem sp).size →
    (readHalfword sp a (writeWord sp a v s)).1 = v.extractLsb' 0 16 ∧
    (readHalfword sp (a + 2) (writeWord sp a v s)).1 = v.extractLsb' 16 16 ∧
    ∀ k : Nat, k < 4 → (readByte sp (a + BitVec.ofNat 32 k) (writeWord sp a v s)).1 = v.extractLsb' (8 * k) 8

/-- R62, the spec's decision D7: a faulting host access on a machine that is halted already changes nothing (its value and its
dropped write are R49). -/
def Obligations.FaultingAccessWhileHalted : Prop :=
  ∀ (s : State) (sp : Space) (a : Addr) (w : Width) (v : Nat) (f : FaultInfo), s.Inv → s.halted = true →
    s.accessFault sp a w = some f → s.memRead sp a w = (0, s) ∧ s.memWrite sp a w v = s

/-- The bulk load (R55; that nothing else changes is the spec's decision D17): each word whose span is inside the memory is written,
little-endian; every other byte, and all the rest but the pc, stays; the pc is 0. -/
def Obligations.BulkLoadWritesTheWords : Prop :=
  ∀ (ws : List Word) (s : State), s.imem.wf = true →
    (∀ i w, ws[i]? = some w → 4 * i + 3 < s.imem.size → ∀ k, k < 4 →
      (loadProgram ws s).imem.get (4 * i + k) = BitVec.ofNat 8 (w.toNat / 2 ^ (8 * k))) ∧
    (∀ a, (∀ i, i < ws.length → 4 * i + 3 < s.imem.size → a < 4 * i ∨ 4 * i + 4 ≤ a) →
      (loadProgram ws s).imem.get a = s.imem.get a) ∧
    (loadProgram ws s).pc = 0 ∧ (∀ r, (loadProgram ws s).readReg r = s.readReg r) ∧
    (loadProgram ws s).imem.size = s.imem.size ∧ (loadProgram ws s).dmem = s.dmem ∧
    (loadProgram ws s).halted = s.halted ∧ (loadProgram ws s).instructionCount = s.instructionCount ∧
    (loadProgram ws s).haltCause = s.haltCause

/-- The file load (R56, the spec's decision D14): a file larger than the memory is rejected with no change; another is written from
address 0 on, every other byte stays, and the pc is 0 or as before, as the OPEN parameter says. -/
def Obligations.FileLoadWritesTheBytes : Prop :=
  ∀ (bs : List Byte) (s : State), s.imem.wf = true →
    (s.imem.size < bs.length → loadFile bs s = (.rejected, s)) ∧
    (bs.length ≤ s.imem.size →
      (loadFile bs s).1 = .ok ∧
      (∀ j b, bs[j]? = some b → (loadFile bs s).2.imem.get j = b) ∧
      (∀ a, bs.length ≤ a → (loadFile bs s).2.imem.get a = s.imem.get a) ∧
      (loadFile bs s).2.pc = (if Config.fileLoadSetsPc0 then 0 else s.pc) ∧
      (∀ r, (loadFile bs s).2.readReg r = s.readReg r) ∧ (loadFile bs s).2.dmem = s.dmem ∧
      (loadFile bs s).2.halted = s.halted ∧ (loadFile bs s).2.instructionCount = s.instructionCount ∧
      (loadFile bs s).2.haltCause = s.haltCause)

/-- The operations that the spec says a model refuses, and where each is not refused: a raw read outside the array (R57), a host
write whose value does not fit the accessor (R41, D13), any transaction after teardown but teardown itself (R128). -/
def Obligations.RefusedHostOperations : Prop :=
  (∀ (s : State) (sp : Space) (a : Nat),
    (a < (s.mem sp).size → rawRead sp a s = .ok ((s.mem sp).get a)) ∧
    ((s.mem sp).size ≤ a → rawRead sp a s = .error .rawReadOutOfBounds)) ∧
  (∀ (s : State) (sp : Space) (a : Addr) (w : Width) (v : Nat),
    (v < 2 ^ (8 * w.bytes) → hostWrite sp a w v s = .next (s.memWrite sp a w v)) ∧
    (2 ^ (8 * w.bytes) ≤ v → hostWrite sp a w v s = .refused .valueTooWide)) ∧
  (∀ (x : Transaction) (l : Lifecycle),
    transactLive x (teardown l) = .refused .tornDown ∧ teardown (teardown l) = teardown l)

/-- Fetch coherence (R60, which the spec derives): no instruction writes either memory; a fetch reads the byte array directly, so it
sees a host's write or load; a write to the data memory is never seen by a fetch. -/
def Obligations.FetchSeesHostWritesOnly : Prop :=
  ∀ s : State,
    (∀ t, step s = .next t → t.imem = s.imem ∧ t.dmem = s.dmem) ∧
    (s.fetchable = true →
      s.fetch.1.toNat = ∑ k ∈ Finset.range 4, (s.imem.get (s.pc.toNat + k)).toNat * 2 ^ (8 * k)) ∧
    (s.imem.wf = true → s.fetchable = true → ∀ v : Word, (writeWord .imem s.pc v s).fetch.1 = v) ∧
    (s.imem.wf = true → 3 < s.imem.size → ∀ (v : Word) (ws : List Word), (loadProgram (v :: ws) s).fetch.1 = v) ∧
    (∀ (a : Addr) (w : Width) (v : Nat), (s.memWrite .dmem a w v).fetch.1 = s.fetch.1)

/-! ## The ten R-type instructions (spec/40_alu_rtype.md)

Each statement says that the instruction's encoding decodes to it, that it completes in every state with every operand, what it writes,
and that it changes nothing else. -/

/-- R88. -/
def Obligations.AddWritesTheSum : Prop :=
  ∀ (rd rs1 rs2 : RegIdx) (s : State),
    decode (encodeFields 0x00 rs2 rs1 0x0 rd 0x33) = .ok (.add rd rs1 rs2) ∧
    ∃ t, exec (.add rd rs1 rs2) s = .next t ∧
      CommitsOnly s t rd (((s.readReg rs1).toNat + (s.readReg rs2).toNat) % 2 ^ 32)

/-- R89. -/
def Obligations.SubWritesTheDifference : Prop :=
  ∀ (rd rs1 rs2 : RegIdx) (s : State),
    decode (encodeFields 0x20 rs2 rs1 0x0 rd 0x33) = .ok (.sub rd rs1 rs2) ∧
    ∃ t, exec (.sub rd rs1 rs2) s = .next t ∧
      CommitsOnly s t rd ((((s.readReg rs1).toNat : Int) - (s.readReg rs2).toNat) % 2 ^ 32).toNat

/-- R90. -/
def Obligations.SllWritesTheLeftShift : Prop :=
  ∀ (rd rs1 rs2 : RegIdx) (f : Funct7) (s : State),
    decode (encodeFields f rs2 rs1 0x1 rd 0x33) = .ok (.sll rd rs1 rs2 f) ∧
    ∃ t, exec (.sll rd rs1 rs2 f) s = .next t ∧
      CommitsOnly s t rd ((s.readReg rs1).toNat * 2 ^ ((s.readReg rs2).toNat % 32) % 2 ^ 32)

/-- R91. -/
def Obligations.SltWritesTheSignedComparison : Prop :=
  ∀ (rd rs1 rs2 : RegIdx) (f : Funct7) (s : State),
    decode (encodeFields f rs2 rs1 0x2 rd 0x33) = .ok (.slt rd rs1 rs2 f) ∧
    ∃ t, exec (.slt rd rs1 rs2 f) s = .next t ∧
      CommitsOnly s t rd (if signedValue (s.readReg rs1) < signedValue (s.readReg rs2) then 1 else 0)

/-- R92. -/
def Obligations.SltuWritesTheUnsignedComparison : Prop :=
  ∀ (rd rs1 rs2 : RegIdx) (f : Funct7) (s : State),
    decode (encodeFields f rs2 rs1 0x3 rd 0x33) = .ok (.sltu rd rs1 rs2 f) ∧
    ∃ t, exec (.sltu rd rs1 rs2 f) s = .next t ∧
      CommitsOnly s t rd (if (s.readReg rs1).toNat < (s.readReg rs2).toNat then 1 else 0)

/-- R93. -/
def Obligations.XorWritesTheExclusiveOr : Prop :=
  ∀ (rd rs1 rs2 : RegIdx) (f : Funct7) (s : State),
    decode (encodeFields f rs2 rs1 0x4 rd 0x33) = .ok (.xor rd rs1 rs2 f) ∧
    ∃ t, exec (.xor rd rs1 rs2 f) s = .next t ∧
      CommitsOnly s t rd ((s.readReg rs1).toNat ^^^ (s.readReg rs2).toNat)

/-- R94. -/
def Obligations.SrlWritesTheLogicalShift : Prop :=
  ∀ (rd rs1 rs2 : RegIdx) (s : State),
    decode (encodeFields 0x00 rs2 rs1 0x5 rd 0x33) = .ok (.srl rd rs1 rs2) ∧
    ∃ t, exec (.srl rd rs1 rs2) s = .next t ∧
      CommitsOnly s t rd ((s.readReg rs1).toNat / 2 ^ ((s.readReg rs2).toNat % 32))

/-- R95: the division of the signed value rounds toward minus infinity. -/
def Obligations.SraWritesTheArithmeticShift : Prop :=
  ∀ (rd rs1 rs2 : RegIdx) (s : State),
    decode (encodeFields 0x20 rs2 rs1 0x5 rd 0x33) = .ok (.sra rd rs1 rs2) ∧
    ∃ t, exec (.sra rd rs1 rs2) s = .next t ∧
      CommitsOnly s t rd (signedValue (s.readReg rs1) / 2 ^ ((s.readReg rs2).toNat % 32) % 2 ^ 32).toNat

/-- R96. -/
def Obligations.OrWritesTheInclusiveOr : Prop :=
  ∀ (rd rs1 rs2 : RegIdx) (f : Funct7) (s : State),
    decode (encodeFields f rs2 rs1 0x6 rd 0x33) = .ok (.or rd rs1 rs2 f) ∧
    ∃ t, exec (.or rd rs1 rs2 f) s = .next t ∧
      CommitsOnly s t rd ((s.readReg rs1).toNat ||| (s.readReg rs2).toNat)

/-- R97. -/
def Obligations.AndWritesTheAnd : Prop :=
  ∀ (rd rs1 rs2 : RegIdx) (f : Funct7) (s : State),
    decode (encodeFields f rs2 rs1 0x7 rd 0x33) = .ok (.and rd rs1 rs2 f) ∧
    ∃ t, exec (.and rd rs1 rs2 f) s = .next t ∧
      CommitsOnly s t rd ((s.readReg rs1).toNat &&& (s.readReg rs2).toNat)

/-! ## The engine (spec/40_alu_rtype.md R83 to R86) -/

/-- R83, R84: the engine's dispatch, the opcode first and then the table row by row; a word it does not list raises the fault, which
halts the machine with no register and no pc change. The controller calls it once for each fetched word that is not the halt word,
and counts it, fault or not. -/
def Obligations.EngineDispatchesByTheTable : Prop :=
  ∀ (d : DecodedInstr) (s : State),
    (d.opcode ≠ 0x33 → executeDecoded d s = .next (s.raise (.unknownOpcode d.opcode))) ∧
    (d.opcode = 0x33 → d.funct3 = 0x0 → d.funct7 = 0x00 → executeDecoded d s = exec (.add d.rd d.rs1 d.rs2) s) ∧
    (d.opcode = 0x33 → d.funct3 = 0x0 → d.funct7 = 0x20 → executeDecoded d s = exec (.sub d.rd d.rs1 d.rs2) s) ∧
    (d.opcode = 0x33 → d.funct3 = 0x1 → executeDecoded d s = exec (.sll d.rd d.rs1 d.rs2 d.funct7) s) ∧
    (d.opcode = 0x33 → d.funct3 = 0x2 → executeDecoded d s = exec (.slt d.rd d.rs1 d.rs2 d.funct7) s) ∧
    (d.opcode = 0x33 → d.funct3 = 0x3 → executeDecoded d s = exec (.sltu d.rd d.rs1 d.rs2 d.funct7) s) ∧
    (d.opcode = 0x33 → d.funct3 = 0x4 → executeDecoded d s = exec (.xor d.rd d.rs1 d.rs2 d.funct7) s) ∧
    (d.opcode = 0x33 → d.funct3 = 0x5 → d.funct7 = 0x00 → executeDecoded d s = exec (.srl d.rd d.rs1 d.rs2) s) ∧
    (d.opcode = 0x33 → d.funct3 = 0x5 → d.funct7 = 0x20 → executeDecoded d s = exec (.sra d.rd d.rs1 d.rs2) s) ∧
    (d.opcode = 0x33 → d.funct3 = 0x6 → executeDecoded d s = exec (.or d.rd d.rs1 d.rs2 d.funct7) s) ∧
    (d.opcode = 0x33 → d.funct3 = 0x7 → executeDecoded d s = exec (.and d.rd d.rs1 d.rs2 d.funct7) s) ∧
    (d.opcode = 0x33 → d.funct3 = 0x0 ∨ d.funct3 = 0x5 → d.funct7 ≠ 0x00 → d.funct7 ≠ 0x20 →
      executeDecoded d s = .next (s.raise (.unknownFunction d.funct3 d.funct7))) ∧
    (∀ f, (s.raise f).halted = true ∧ SameRegsPcCount s (s.raise f)) ∧
    (s.halted = false → s.fetchable = true → s.nextWord ≠ 0 → step s = countAfter (executeDecoded (decodeFields s.nextWord) s))

/-- What the engine may write (R86, which the spec derives): whatever Decoded Instruction it is given, the engine writes x[rd] and
the pc on success, or the flag and the cause on a fault, and never both; it never touches a memory or the counter.
The wrap of the pc at 2^32 is the spec's decision D9 (log entry 13). -/
def Obligations.EngineWritesOnlyItsOwn : Prop :=
  ∀ (d : DecodedInstr) (s : State), ∃ t, executeDecoded d s = .next t ∧
    t.imem = s.imem ∧ t.dmem = s.dmem ∧ t.instructionCount = s.instructionCount ∧
    (∀ r, r ≠ d.rd → t.readReg r = s.readReg r) ∧
    ((t.pc = s.pc + 4 ∧ t.halted = s.halted ∧ t.haltCause = s.haltCause) ∨
      (t.pc = s.pc ∧ t.halted = true ∧ ∀ r, t.readReg r = s.readReg r))

/-- What R77 derives: an R-type instruction whose destination is x0 executes in full and acts as a no-operation: only the pc
advances.
The wrap of the pc at 2^32 is the spec's decision D9 (log entry 13). -/
def Obligations.WriteToX0OnlyAdvancesThePc : Prop :=
  ∀ (i : Instr) (s : State), i ≠ .halt → i.decoded.rd = 0 →
    exec i s = .next (s.setPc (s.pc + 4)) ∧
    (s.halted = false → s.fetchable = true → decode s.nextWord = .ok i →
      step s = .next (s.setPc (s.pc + 4)).countExecuted)

/-! ## The halt word and the sequencer (spec/41_halt_and_sequencer.md) -/

/-- R98: the halt word is the word 0 exactly; HALT halts with cause HaltWord if none is recorded, and changes nothing else; it is
not counted. A fetch that faults delivers 0 and takes the same path, where the memory fault is the cause that is kept. -/
def Obligations.HaltWordHalts : Prop :=
  (∀ w : Word, decode w = .ok .halt ↔ w = 0x00000000#32) ∧
  ∀ s : State,
    (∃ t, exec .halt s = .next t ∧ t.halted = true ∧
      t.haltCause = (if s.haltCause = .none then .haltWord else s.haltCause) ∧
      SameRegsPcCount s t ∧ t.imem = s.imem ∧ t.dmem = s.dmem) ∧
    (s.halted = false → s.fetchable = true → s.nextWord = 0x00000000#32 → step s = exec .halt s) ∧
    (s.halted = false → s.fetchable = false →
      s.fetch.1 = 0 ∧ step s = exec .halt s.fetch.2 ∧ ∃ t, step s = .next t ∧ t.halted = true ∧
        t.haltCause = s.fetch.2.haltCause ∧ t.instructionCount = s.instructionCount)

/-- R100: when the word at the pc decodes to an instruction, a step is that instruction, counted after it unless it is the halt
word. -/
def Obligations.StepRunsTheDecodedInstruction : Prop :=
  ∀ (s : State) (i : Instr), s.halted = false → s.fetchable = true → decode s.nextWord = .ok i → i.wellFormed = true →
    step s = if i = .halt then exec i s else countAfter (exec i s)

/-- R25, R104: on a halted machine step, and run, change nothing. -/
def Obligations.HaltedMachineIsIdle : Prop :=
  ∀ s : State, s.halted = true → step s = .next s ∧ iterateRun s = .next s ∧ ∀ k, runWithin k s = some s

/-- The stages of a step in their order (R116, the spec's decisions D3 and D12); the first that applies decides.
The wrap of the pc at 2^32 is the spec's decision D9 (log entry 13). -/
def Obligations.StepStagesInOrder : Prop :=
  ∀ s : State,
    (s.halted = true → step s = .next s) ∧
    (s.halted = false → s.imem.size ≤ s.pc.toNat + 3 → step s = .next (s.raise (.outOfBounds .imem s.pc .word))) ∧
    (s.halted = false → s.pc.toNat + 3 < s.imem.size → s.pc.toNat % 4 ≠ 0 →
      step s = .next (s.raise (.misaligned .imem s.pc .word))) ∧
    (s.halted = false → s.fetchable = true → s.nextWord = 0 → step s = .next (s.halt .haltWord)) ∧
    (s.halted = false → s.fetchable = true → s.nextWord ≠ 0 → opcodeField s.nextWord ≠ 0x33 →
      step s = .next (s.raise (.unknownOpcode (opcodeField s.nextWord))).countExecuted) ∧
    (s.halted = false → s.fetchable = true → opcodeField s.nextWord = 0x33 →
      funct3Field s.nextWord = 0x0 ∨ funct3Field s.nextWord = 0x5 → funct7Field s.nextWord ≠ 0x00 →
      funct7Field s.nextWord ≠ 0x20 →
      step s = .next (s.raise (.unknownFunction (funct3Field s.nextWord) (funct7Field s.nextWord))).countExecuted) ∧
    (s.halted = false → s.fetchable = true → opcodeField s.nextWord = 0x33 →
      ¬((funct3Field s.nextWord = 0x0 ∨ funct3Field s.nextWord = 0x5) ∧ funct7Field s.nextWord ≠ 0x00 ∧
        funct7Field s.nextWord ≠ 0x20) →
      ∃ v, step s = .next (s.commit (rdField s.nextWord) v).countExecuted) ∧
    (s.Inv → ∀ t, step s = .next t → t.halted = true → runIteration s = .next t)

/-- R101: the counter goes up by exactly 1 (modulo 2^64, the spec's decision D10) in a step that reaches execute, and not otherwise.
-/
def Obligations.CounterCountsExecutedSteps : Prop :=
  ∀ s t : State, step s = .next t →
    t.instructionCount.toNat =
      (if s.halted = false ∧ s.fetchable = true ∧ s.nextWord ≠ 0 then (s.instructionCount.toNat + 1) % 2 ^ 64
       else s.instructionCount.toNat) ∧
    t.pcCheck.instructionCount = t.instructionCount

/-- R85, R106: a step of a running machine either advances the pc by 4 and goes on, or halts and leaves the pc; there is no other
change of the pc, and the registers and memories of a halting step are as before.
The wrap of the pc at 2^32 is the spec's decision D9 (log entry 13). -/
def Obligations.PcAdvancesOrTheMachineHalts : Prop :=
  ∀ s t : State, s.halted = false → step s = .next t →
    (t.halted = false ∧ t.pc = s.pc + 4) ∨
    (t.halted = true ∧ t.pc = s.pc ∧ (∀ r, t.readReg r = s.readReg r) ∧ t.imem = s.imem ∧ t.dmem = s.dmem)

/-- R22: a pc that is a multiple of 4 stays one, whatever a step does. -/
def Obligations.StepKeepsThePcAligned : Prop :=
  ∀ s t : State, s.pc.toNat % 4 = 0 → step s = .next t → t.pc.toNat % 4 = 0

/-- The check of run after a step (R103, the spec's decision D11): at or above IMEM_SIZE it halts, recording PcOutOfRange if no
cause is recorded; below, it changes nothing; it never changes the pc, a register, a memory or the counter. -/
def Obligations.RunChecksThePcAfterAStep : Prop :=
  ∀ s t : State, step s = .next t →
    ∃ u, runIteration s = .next u ∧ SameRegsPcCount t u ∧ u.imem = t.imem ∧ u.dmem = t.dmem ∧
      (t.imem.size ≤ t.pc.toNat →
        u.halted = true ∧ u.haltCause = if t.haltCause = .none then .pcOutOfRange else t.haltCause) ∧
      (t.pc.toNat < t.imem.size → u = t)

/-- R105: below the full address space run ends, within IMEM_SIZE / 4 + 1 steps from any state, and executes at most IMEM_SIZE / 4
instructions. -/
def Obligations.RunEndsBelowTheFullSpace : Prop :=
  ∀ s : State, s.imem.size < 2 ^ 32 →
    ∃ t n, runWithin (s.imem.size / 4 + 1) s = some t ∧ t.halted = true ∧ n ≤ s.imem.size / 4 ∧
      t.instructionCount = s.instructionCount + BitVec.ofNat 64 n

/-- R105, I13: with the full address space filled with the word 0x00000033, run never ends from any aligned pc.
The wrap of the pc at 2^32 is the spec's decision D9 (log entry 13). -/
def Obligations.RunNeedNotEndInTheFullSpace : Prop :=
  ∀ s : State, s.imem.size = 2 ^ 32 → s.halted = false → s.pc.toNat % 4 = 0 →
    (∀ a, a < 2 ^ 32 → s.imem.get a = if a % 4 = 0 then 0x33#8 else 0x00#8) → RunsForever s

/-- R108, the spec's decision D11 (log entry 14): step alone and run differ only when a successful step leaves the pc at or above
IMEM_SIZE; then run halts at once with PcOutOfRange, and steps alone halt at the next one with OutOfBounds, with the same registers,
pc and counter. -/
def Obligations.StepAloneAndRunDifferOnlyAtTheEnd : Prop :=
  ∀ s t : State, s.Inv → s.halted = false → step s = .next t →
    (t.halted = true ∨ t.pc.toNat < t.imem.size → runIteration s = .next t) ∧
    (t.halted = false → t.imem.size ≤ t.pc.toNat →
      ∃ u v, runIteration s = .next u ∧ u.halted = true ∧ u.haltCause = .pcOutOfRange ∧
        step t = .next v ∧ v.halted = true ∧ v.haltCause = .fault (.outOfBounds .imem t.pc .word) ∧ SameRegsPcCount u v)

/-- R102: run returns only halted states, and once it has returned, more iterations give the same state. -/
def Obligations.RunReturnsHalted : Prop :=
  ∀ (k : Nat) (s t : State), runWithin k s = some t → t.halted = true ∧ ∀ j, k ≤ j → runWithin j s = some t

/-! ## Faults (spec/60_exceptions.md) -/

/-- R113: raising a fault sets the flag, records the cause if none is recorded, and changes nothing else; for a memory fault a read
returns 0 and a write writes nothing, and for an execute fault no register and no pc changes: all that happens is the raise. -/
def Obligations.RaiseHaltsInPlace : Prop :=
  ∀ (f : FaultInfo) (s : State),
    (s.raise f).halted = true ∧ (s.raise f).haltCause = (if s.haltCause = .none then .fault f else s.haltCause) ∧
    SameRegsPcCount s (s.raise f) ∧ (s.raise f).imem = s.imem ∧ (s.raise f).dmem = s.dmem ∧
    (∀ sp a w, s.accessFault sp a w = some f → s.memRead sp a w = (0, s.raise f) ∧ ∀ v, s.memWrite sp a w v = s.raise f) ∧
    (∀ d r, d.toInstr = .error r → executeDecoded d s = .next (s.raise (rejectFault r)))

/-- What R111 comes to: no step stops outside the state: every step of every state answers a next state. -/
def Obligations.EveryStepAnswersANextState : Prop := ∀ s : State, ∃ t, step s = .next t

/-- First cause wins (R27, the spec's decisions D2 and D23): the first cause that halts the machine is the one kept by every
transaction but the reset; and the codes of the causes. -/
def Obligations.FirstHaltCauseIsKept : Prop :=
  (∀ (x : Transaction) (s t : State), x ≠ .reset → transact x s = .next t → s.haltCause ≠ .none → t.haltCause = s.haltCause) ∧
  HaltCause.none.code = 0 ∧ HaltCause.haltWord.code = 1 ∧ HaltCause.pcOutOfRange.code = 6 ∧
  (∀ sp a w, (HaltCause.fault (.outOfBounds sp a w)).code = 2 ∧ (HaltCause.fault (.misaligned sp a w)).code = 3) ∧
  (∀ op, (HaltCause.fault (.unknownOpcode op)).code = 4) ∧
  (∀ f3 f7, (HaltCause.fault (.unknownFunction f3 f7)).code = 5)

/-! ## Reset and construction (spec/70_reset_and_hazards.md) -/

/-- Reset (R127) clears the registers, the pc, the flag, the counter and the cause, and keeps both memories, halted or not; and no
other transaction sets the flag to false. That there is a cause and that reset makes it None is the spec's decision D2 (log entry
8). -/
def Obligations.ResetClearsAllButMemory : Prop :=
  ∀ s : State,
    (∃ t, transact .reset s = .next t ∧ (∀ r, t.readReg r = 0) ∧ t.pc = 0 ∧ t.halted = false ∧
      t.instructionCount = 0 ∧ t.haltCause = .none ∧ t.imem = s.imem ∧ t.dmem = s.dmem) ∧
    (∀ x t, transact x s = .next t → s.halted = true → t.halted = false → x = .reset)

/-- R32: the values of the machine right after reset that the spec gives. -/
def Obligations.ResetStateHasTheSpecsValues : Prop :=
  (∀ r, State.reset.readReg r = 0) ∧ State.reset.pc = 0 ∧ State.reset.halted = false ∧
  State.reset.instructionCount = 0 ∧ State.reset.haltCause = .none

/-- Construction (R126, the spec's decisions D4 to D6): an illegal size is refused, a failed allocation gives no machine, and
otherwise the memories have the given sizes and contents and the rest its reset value. -/
def Obligations.ConstructionMakesTheGivenMachine : Prop :=
  ∀ (allocates : Bool) (isz dsz : Nat) (fi fd : Nat → Byte),
    (¬(1 ≤ isz ∧ isz ≤ 2 ^ 32 ∧ 1 ≤ dsz ∧ dsz ≤ 2 ^ 32) →
      initMachine allocates isz dsz fi fd = .refused .illegalMemorySize) ∧
    (1 ≤ isz → isz ≤ 2 ^ 32 → 1 ≤ dsz → dsz ≤ 2 ^ 32 → allocates = false →
      initMachine allocates isz dsz fi fd = .refused .allocationFailed) ∧
    (1 ≤ isz → isz ≤ 2 ^ 32 → 1 ≤ dsz → dsz ≤ 2 ^ 32 → allocates = true →
      ∃ t, initMachine allocates isz dsz fi fd = .next t ∧ t.Inv ∧ t.imem.size = isz ∧ t.dmem.size = dsz ∧
        (∀ a, a < isz → t.imem.get a = fi a) ∧ (∀ a, a < dsz → t.dmem.get a = fd a) ∧ (∀ r, t.readReg r = 0) ∧
        t.pc = 0 ∧ t.halted = false ∧ t.instructionCount = 0 ∧ t.haltCause = .none)

/-! ## Invariants and whole-machine statements -/

/-- The invariant holds right after reset. -/
def Obligations.InvariantHoldsAtReset : Prop := State.reset.Inv

/-- Every step keeps the invariant, from any state that meets it. -/
def Obligations.StepKeepsTheInvariant : Prop :=
  ∀ s t : State, s.Inv → step s = .next t → t.Inv

/-- Every transaction, the controller's and the host's, keeps the invariant; so it holds after any run of them. -/
def Obligations.TransactionsKeepTheInvariant : Prop :=
  ∀ s t : State, s.Inv → Reaches s t → t.Inv

/-- R39, R130: data memory plays no part in a run: with any other data memory, run returns the same state but for that memory, after
the same number of iterations. -/
def Obligations.DataMemoryPlaysNoPartInARun : Prop :=
  ∀ (k : Nat) (s : State) (m : Memory),
    runWithin k (s.setMem .dmem m) = (runWithin k s).map (State.setMem .dmem m)
end

