-- ==== Sys2Proof/Laws/Decode.lean ====
section
/-! SUPPORT. The laws of the fields of a word (R66, R67): what each field of an encoded word is, that the fields make up the word, and the
two inversion lemmas of the engine's tests on a Decoded Instruction. -/

namespace Sys2Proof

/-- A bit field as a number. -/
theorem toNat_bitField (w : Word) (lo len : Nat) : (bitField w lo len).toNat = w.toNat / 2 ^ lo % 2 ^ len := by
  simp [bitField, BitVec.extractLsb', Nat.shiftRight_eq_div_pow]

/-- Concatenation as a number. -/
theorem toNat_append_add {m n : Nat} (x : BitVec m) (y : BitVec n) : (x ++ y).toNat = x.toNat * 2 ^ n + y.toNat := by
  rw [BitVec.toNat_append, ← Nat.shiftLeft_add_eq_or_of_lt y.isLt, Nat.shiftLeft_eq]

/-- An encoded word as a number: each field at the weight of its lowest bit (R66). -/
theorem toNat_encodeFields (f7 : Funct7) (rs2 rs1 : RegIdx) (f3 : Funct3) (rd : RegIdx) (op : Opcode) :
    (encodeFields f7 rs2 rs1 f3 rd op).toNat =
      f7.toNat * 2 ^ 25 + rs2.toNat * 2 ^ 20 + rs1.toNat * 2 ^ 15 + f3.toNat * 2 ^ 12 + rd.toNat * 2 ^ 7 + op.toNat := by
  unfold encodeFields
  rw [toNat_append_add, toNat_append_add, toNat_append_add, toNat_append_add, toNat_append_add]
  omega

section fieldsOfEncoded

variable (f7 : Funct7) (rs2 rs1 : RegIdx) (f3 : Funct3) (rd : RegIdx) (op : Opcode)

@[simp] theorem opcodeField_encodeFields : opcodeField (encodeFields f7 rs2 rs1 f3 rd op) = op := by
  apply BitVec.eq_of_toNat_eq
  rw [opcodeField, toNat_bitField, toNat_encodeFields]
  have := op.isLt
  omega

@[simp] theorem rdField_encodeFields : rdField (encodeFields f7 rs2 rs1 f3 rd op) = rd := by
  apply BitVec.eq_of_toNat_eq
  rw [rdField, toNat_bitField, toNat_encodeFields]
  have := op.isLt
  have := rd.isLt
  omega

@[simp] theorem funct3Field_encodeFields : funct3Field (encodeFields f7 rs2 rs1 f3 rd op) = f3 := by
  apply BitVec.eq_of_toNat_eq
  rw [funct3Field, toNat_bitField, toNat_encodeFields]
  have := op.isLt
  have := rd.isLt
  have := f3.isLt
  omega

@[simp] theorem rs1Field_encodeFields : rs1Field (encodeFields f7 rs2 rs1 f3 rd op) = rs1 := by
  apply BitVec.eq_of_toNat_eq
  rw [rs1Field, toNat_bitField, toNat_encodeFields]
  have := op.isLt
  have := rd.isLt
  have := f3.isLt
  have := rs1.isLt
  omega

@[simp] theorem rs2Field_encodeFields : rs2Field (encodeFields f7 rs2 rs1 f3 rd op) = rs2 := by
  apply BitVec.eq_of_toNat_eq
  rw [rs2Field, toNat_bitField, toNat_encodeFields]
  have := op.isLt
  have := rd.isLt
  have := f3.isLt
  have := rs1.isLt
  have := rs2.isLt
  omega

@[simp] theorem funct7Field_encodeFields : funct7Field (encodeFields f7 rs2 rs1 f3 rd op) = f7 := by
  apply BitVec.eq_of_toNat_eq
  rw [funct7Field, toNat_bitField, toNat_encodeFields]
  have := op.isLt
  have := rd.isLt
  have := f3.isLt
  have := rs1.isLt
  have := rs2.isLt
  have := f7.isLt
  omega

end fieldsOfEncoded

/-- The six fields tile the word, with no gap and no overlap (R66). -/
theorem encodeFields_fields (w : Word) :
    encodeFields (funct7Field w) (rs2Field w) (rs1Field w) (funct3Field w) (rdField w) (opcodeField w) = w := by
  apply BitVec.eq_of_toNat_eq
  rw [toNat_encodeFields]
  simp only [funct7Field, rs2Field, rs1Field, funct3Field, rdField, opcodeField, toNat_bitField]
  have := w.isLt
  omega

theorem decodeFields_rType {w : Word} (h : opcodeField w = rTypeOpcode) :
    decodeFields w = .ofRType (funct7Field w) (rs2Field w) (rs1Field w) (funct3Field w) (rdField w) := by
  rw [decodeFields, if_pos h]

theorem decodeFields_unknown {w : Word} (h : opcodeField w ≠ rTypeOpcode) : decodeFields w = .ofUnknown (opcodeField w) := by
  rw [decodeFields, if_neg h]

/-- An R-type word is not the halt word (R74). -/
theorem ne_haltWord_of_rType {w : Word} (h : opcodeField w = rTypeOpcode) : w ≠ haltWord := by
  rintro rfl
  exact absurd h (by decide)

/-- All that decoding a word can give. -/
theorem decode_cases (w : Word) :
    (w = haltWord ∧ decode w = .ok .halt) ∨
    (w ≠ haltWord ∧ opcodeField w ≠ rTypeOpcode ∧ decode w = .error (.unknownOpcode (opcodeField w))) ∨
    (opcodeField w = rTypeOpcode ∧ select (funct3Field w) (funct7Field w) = none ∧
      decode w = .error (.unknownFunction (funct3Field w) (funct7Field w))) ∨
    (opcodeField w = rTypeOpcode ∧ ∃ op, select (funct3Field w) (funct7Field w) = some op ∧
      decode w = .ok (op.instr (decodeFields w))) := by
  by_cases h0 : w = haltWord
  · exact .inl ⟨h0, by rw [decode, if_pos h0]⟩
  · by_cases ho : opcodeField w = rTypeOpcode
    · have hd := decodeFields_rType ho
      have ht : decode w = (decodeFields w).toInstr := by rw [decode, if_neg h0]
      rw [ht, DecodedInstr.toInstr, if_pos (by rw [hd]; rfl)]
      have h3 : (decodeFields w).funct3 = funct3Field w := by rw [hd]; rfl
      have h7 : (decodeFields w).funct7 = funct7Field w := by rw [hd]; rfl
      rw [h3, h7]
      cases hs : select (funct3Field w) (funct7Field w) with
      | none => exact .inr (.inr (.inl ⟨ho, rfl, rfl⟩))
      | some op => exact .inr (.inr (.inr ⟨ho, op, rfl, rfl⟩))
    · refine .inr (.inl ⟨h0, ho, ?_⟩)
      rw [decode, if_neg h0, decodeFields_unknown ho, DecodedInstr.toInstr, if_neg (by exact ho)]
      rfl

/-- The dispatch table has no row exactly for funct3 0 or 5 with funct7 neither 0x00 nor 0x20 (R84). -/
theorem select_eq_none_iff (f3 : Funct3) (f7 : Funct7) :
    select f3 f7 = none ↔ (f3 = 0x0 ∨ f3 = 0x5) ∧ f7 ≠ 0x00 ∧ f7 ≠ 0x20 := by
  revert f3 f7
  decide

/-- What the dispatch gives carries the function codes it was selected by (R73, R84). -/
theorem decoded_instr {f3 : Funct3} {f7 : Funct7} {op : AluOp} (h : select f3 f7 = some op) (rs2 rs1 rd : RegIdx) :
    (op.instr (.ofRType f7 rs2 rs1 f3 rd)).decoded = .ofRType f7 rs2 rs1 f3 rd := by
  have hc : f3 = op.funct3 ∧ (op = .add ∨ op = .sub ∨ op = .srl ∨ op = .sra → f7 = op.funct7) := by
    revert f3 f7 op
    decide
  obtain ⟨h3, h7⟩ := hc
  cases op with
  | add => rw [h3, h7 (by simp)]; rfl
  | sub => rw [h3, h7 (by simp)]; rfl
  | sll => rw [h3]; rfl
  | slt => rw [h3]; rfl
  | sltu => rw [h3]; rfl
  | xor => rw [h3]; rfl
  | srl => rw [h3, h7 (by simp)]; rfl
  | sra => rw [h3, h7 (by simp)]; rfl
  | or => rw [h3]; rfl
  | and => rw [h3]; rfl

/-- A word that decodes to an instruction decodes to that instruction's Decoded Instruction. -/
theorem decoded_of_decode {w : Word} {i : Instr} (h : decode w = .ok i) : i.decoded = decodeFields w := by
  rcases decode_cases w with ⟨hw, hd⟩ | ⟨_, _, hd⟩ | ⟨_, _, hd⟩ | ⟨ho, op, hs, hd⟩
  · rw [hd] at h; cases h; subst hw; decide
  · rw [hd] at h; cases h
  · rw [hd] at h; cases h
  · rw [hd] at h; cases h
    rw [decodeFields_rType ho]
    exact decoded_instr hs _ _ _

/-! ## Masks (R73) -/

theorem append_and_append {m n : Nat} (x a : BitVec m) (y b : BitVec n) : (x ++ y) &&& (a ++ b) = (x &&& a) ++ (y &&& b) := by
  ext i hi
  simp only [BitVec.getElem_and, BitVec.getElem_append]
  split <;> simp

/-- The mask of the "any" rows keeps funct3 and the opcode. -/
theorem encodeFields_and_anyMask (f7 : Funct7) (rs2 rs1 : RegIdx) (f3 : Funct3) (rd : RegIdx) (op : Opcode) :
    encodeFields f7 rs2 rs1 f3 rd op &&& 0x0000707F#32 = encodeFields 0 0 0 f3 0 op := by
  have hm : (0x0000707F#32) = encodeFields 0 0 0 7 0 127 := by decide
  have h3 : f3 &&& 7#3 = f3 := by revert f3; decide
  have ho : op &&& 127#7 = op := by revert op; decide
  rw [hm]
  unfold encodeFields
  rw [append_and_append, append_and_append, append_and_append, append_and_append, append_and_append]
  simp [h3, ho]

/-- The mask of the other R-type rows keeps funct7, funct3 and the opcode. -/
theorem encodeFields_and_fullMask (f7 : Funct7) (rs2 rs1 : RegIdx) (f3 : Funct3) (rd : RegIdx) (op : Opcode) :
    encodeFields f7 rs2 rs1 f3 rd op &&& 0xFE00707F#32 = encodeFields f7 0 0 f3 0 op := by
  have hm : (0xFE00707F#32) = encodeFields 127 0 0 7 0 127 := by decide
  have h7 : f7 &&& 127#7 = f7 := by revert f7; decide
  have h3 : f3 &&& 7#3 = f3 := by revert f3; decide
  have ho : op &&& 127#7 = op := by revert op; decide
  rw [hm]
  unfold encodeFields
  rw [append_and_append, append_and_append, append_and_append, append_and_append, append_and_append]
  simp [h7, h3, ho]

/-- HALT is the halt word's instruction and no other word's (R74). -/
theorem decode_ne_halt_iff (w : Word) (i : Instr) (h : decode w = .ok i) : i = .halt ↔ w = haltWord := by
  rcases decode_cases w with ⟨hw, hd⟩ | ⟨_, _, hd⟩ | ⟨_, _, hd⟩ | ⟨ho, op, _, hd⟩
  · rw [hd] at h; cases h; exact ⟨fun _ => hw, fun _ => rfl⟩
  · rw [hd] at h; cases h
  · rw [hd] at h; cases h
  · rw [hd] at h; cases h
    constructor
    · intro e; cases op <;> cases e
    · intro e; exact absurd e (ne_haltWord_of_rType ho)

end Sys2Proof
end

