-- ==== Sys2Proof/Laws/Memory.lean ====
section
/-! SUPPORT. The laws of the byte order and of a memory: what a read gives after a write, that every operation keeps the canonical form,
and that memories in the canonical form with the same bytes are equal. -/

namespace Sys2Proof

/-! ## Byte order -/

@[simp] theorem length_leBytes (n v : Nat) : (leBytes n v).length = n := by
  induction n generalizing v with
  | zero => rfl
  | succ n ih => simp [leBytes, ih]

/-- The bytes of a value give it back, cut to their number (R42). -/
theorem leValue_leBytes (n v : Nat) : leValue (leBytes n v) = v % 256 ^ n := by
  induction n generalizing v with
  | zero => simp [leBytes, leValue, Nat.mod_one]
  | succ n ih =>
    have hd : (BitVec.ofNat 8 v).toNat = v % 256 := by simp
    rw [leBytes, leValue, ih, hd, pow_succ, mul_comm (256 ^ n) 256, Nat.mod_mul]

/-- Byte k of a value in memory order is its bits 8k+7 to 8k (R42). -/
theorem getElem?_leBytes (n v k : Nat) (h : k < n) : (leBytes n v)[k]? = some (BitVec.ofNat 8 (v / 256 ^ k)) := by
  induction n generalizing v k with
  | zero => omega
  | succ n ih =>
    cases k with
    | zero => simp [leBytes]
    | succ k =>
      rw [leBytes, List.getElem?_cons_succ, ih _ _ (by omega), Nat.div_div_eq_div_mul, pow_succ']

theorem leValue_lt (bs : List Byte) : leValue bs < 256 ^ bs.length := by
  induction bs with
  | nil => simp [leValue]
  | cons b bs ih =>
    have hb : b.toNat < 256 := b.isLt
    rw [leValue, List.length_cons, pow_succ]
    omega

/-- The bytes of the value of n bytes are those bytes. -/
theorem leBytes_leValue (bs : List Byte) : leBytes bs.length (leValue bs) = bs := by
  induction bs with
  | nil => rfl
  | cons b bs ih =>
    have hb : b.toNat < 256 := b.isLt
    have h1 : BitVec.ofNat 8 (b.toNat + 256 * leValue bs) = b := by
      apply BitVec.eq_of_toNat_eq
      rw [BitVec.toNat_ofNat]
      omega
    have h2 : (b.toNat + 256 * leValue bs) / 256 = leValue bs := by omega
    simp [leBytes, leValue, h1, h2, ih]

end Sys2Proof

namespace Sys2Proof.Machine

/-! ## Lists of cells -/

/-- Below the first listed address every byte is the unlisted one. -/
theorem lookupCell_below {size lo : Nat} {cs : List Host.Cell} (h : canonicalFrom size lo cs = true) {a : Nat} (ha : a < lo) :
    lookupCell cs a = unlistedByte := by
  induction cs generalizing lo with
  | nil => rfl
  | cons c cs ih =>
    obtain ⟨k, v⟩ := c
    simp only [canonicalFrom, Bool.and_eq_true, decide_eq_true_eq] at h
    rw [lookupCell, if_neg (by omega)]
    exact ih h.2 (by omega)

/-- At or above the size no address is listed. -/
theorem lookupCell_above {size lo : Nat} {cs : List Host.Cell} (h : canonicalFrom size lo cs = true) {a : Nat} (ha : size ≤ a) :
    lookupCell cs a = unlistedByte := by
  induction cs generalizing lo with
  | nil => rfl
  | cons c cs ih =>
    obtain ⟨k, v⟩ := c
    simp only [canonicalFrom, Bool.and_eq_true, decide_eq_true_eq] at h
    rw [lookupCell, if_neg (by omega)]
    exact ih h.2

theorem canonicalFrom_weaken {size lo lo' : Nat} {cs : List Host.Cell} (h : canonicalFrom size lo cs = true) (hl : lo' ≤ lo) :
    canonicalFrom size lo' cs = true := by
  cases cs with
  | nil => rfl
  | cons c cs =>
    obtain ⟨k, v⟩ := c
    simp only [canonicalFrom, Bool.and_eq_true, decide_eq_true_eq] at h ⊢
    exact ⟨⟨⟨by omega, h.1.1.2⟩, h.1.2⟩, h.2⟩

/-- What a list of cells reads after a store: the new byte at the address, the old one elsewhere. -/
theorem lookupCell_storeCell {size lo : Nat} {cs : List Host.Cell} (h : canonicalFrom size lo cs = true) (a a' : Nat) (b : Byte) :
    lookupCell (storeCell cs a b) a' = if a' = a then b else lookupCell cs a' := by
  induction cs generalizing lo with
  | nil =>
    have hs : (a = a') = (a' = a) := propext eq_comm
    by_cases hb : b = unlistedByte <;> by_cases e : a' = a <;> simp [storeCell, lookupCell, hb, e, hs]
  | cons c cs ih =>
    obtain ⟨k, v⟩ := c
    simp only [canonicalFrom, Bool.and_eq_true, decide_eq_true_eq] at h
    obtain ⟨⟨⟨hlo, hk⟩, hv⟩, hcs⟩ := h
    rw [storeCell]
    split
    · next hak =>
      split
      · next hb =>
        by_cases e : a' = a
        · subst e
          rw [if_pos rfl, lookupCell, if_neg (by omega), lookupCell_below hcs (by omega), hb]
        · rw [if_neg e]
      · by_cases e : a' = a
        · subst e
          rw [if_pos rfl, lookupCell, if_pos rfl]
        · rw [if_neg e, lookupCell, if_neg (Ne.symm e)]
    · next hak =>
      split
      · next e0 =>
        subst e0
        split
        · next hb =>
          by_cases e : a' = a
          · subst e
            rw [if_pos rfl, lookupCell_below hcs (by omega), hb]
          · rw [if_neg e, lookupCell, if_neg (Ne.symm e)]
        · by_cases e : a' = a
          · subst e
            rw [if_pos rfl, lookupCell, if_pos rfl]
          · rw [if_neg e, lookupCell, if_neg (Ne.symm e), lookupCell, if_neg (Ne.symm e)]
      · next hne =>
        rw [lookupCell, ih hcs, lookupCell]
        by_cases ek : k = a'
        · subst ek
          rw [if_pos rfl, if_neg (Ne.symm hne), if_pos rfl]
        · rw [if_neg ek, if_neg ek]

/-- A store keeps the canonical form. -/
theorem canonicalFrom_storeCell {size lo : Nat} {cs : List Host.Cell} (h : canonicalFrom size lo cs = true) {a : Nat} (b : Byte)
    (hlo : lo ≤ a) (ha : a < size) : canonicalFrom size lo (storeCell cs a b) = true := by
  induction cs generalizing lo with
  | nil =>
    rw [storeCell]
    split
    · rfl
    · next hb => simp [canonicalFrom, hlo, ha, hb]
  | cons c cs ih =>
    obtain ⟨k, v⟩ := c
    have h' := h
    simp only [canonicalFrom, Bool.and_eq_true, decide_eq_true_eq] at h
    obtain ⟨⟨⟨hk1, hk2⟩, hv⟩, hcs⟩ := h
    rw [storeCell]
    split
    · next hak =>
      split
      · exact h'
      · next hb =>
        simp only [canonicalFrom, Bool.and_eq_true, decide_eq_true_eq]
        exact ⟨⟨⟨hlo, ha⟩, hb⟩, ⟨⟨by omega, hk2⟩, hv⟩, hcs⟩
    · next hak =>
      split
      · next e =>
        subst e
        split
        · exact canonicalFrom_weaken hcs (by omega)
        · next hb =>
          simp only [canonicalFrom, Bool.and_eq_true, decide_eq_true_eq]
          exact ⟨⟨⟨hlo, ha⟩, hb⟩, hcs⟩
      · simp only [canonicalFrom, Bool.and_eq_true, decide_eq_true_eq]
        exact ⟨⟨⟨hk1, hk2⟩, hv⟩, ih hcs (by omega)⟩

/-- Two canonical lists that read the same everywhere are the same list. -/
theorem canonicalFrom_ext {size lo : Nat} {cs ds : List Host.Cell} (hc : canonicalFrom size lo cs = true)
    (hd : canonicalFrom size lo ds = true) (h : ∀ a, lookupCell cs a = lookupCell ds a) : cs = ds := by
  induction cs generalizing lo ds with
  | nil =>
    cases ds with
    | nil => rfl
    | cons d ds =>
      obtain ⟨k, v⟩ := d
      simp only [canonicalFrom, Bool.and_eq_true, decide_eq_true_eq] at hd
      have := h k
      rw [lookupCell, lookupCell, if_pos rfl] at this
      exact absurd this.symm hd.1.2
  | cons c cs ih =>
    obtain ⟨k, v⟩ := c
    have hc' := hc
    simp only [canonicalFrom, Bool.and_eq_true, decide_eq_true_eq] at hc
    cases ds with
    | nil =>
      have := h k
      rw [lookupCell, lookupCell, if_pos rfl] at this
      exact absurd this hc.1.2
    | cons d ds =>
      obtain ⟨j, w⟩ := d
      have hd' := hd
      simp only [canonicalFrom, Bool.and_eq_true, decide_eq_true_eq] at hd
      have hkj : k = j := by
        rcases lt_trichotomy k j with hlt | heq | hgt
        · have := h k
          rw [lookupCell, if_pos rfl, lookupCell, if_neg (by omega), lookupCell_below hd.2 (by omega)] at this
          exact absurd this hc.1.2
        · exact heq
        · have := h j
          rw [lookupCell, if_neg (by omega), lookupCell_below hc.2 (by omega), lookupCell, if_pos rfl] at this
          exact absurd this.symm hd.1.2
      subst hkj
      have hvw : v = w := by
        have := h k
        rwa [lookupCell, if_pos rfl, lookupCell, if_pos rfl] at this
      subst hvw
      rw [ih hc.2 hd.2]
      intro a
      by_cases ha : a ≤ k
      · rw [lookupCell_below hc.2 (by omega), lookupCell_below hd.2 (by omega)]
      · have := h a
        rwa [lookupCell, if_neg (by omega), lookupCell, if_neg (by omega)] at this

/-! ## One byte of a memory -/

theorem Memory.wf_canonical {m : Memory} (h : m.wf = true) : canonicalFrom m.size 0 m.cells = true := by
  simp only [Memory.wf, Bool.and_eq_true] at h
  exact h.2

theorem Memory.wf_size {m : Memory} (h : m.wf = true) : 1 ≤ m.size ∧ m.size ≤ 4294967296 := by
  simp only [Memory.wf, Bool.and_eq_true, decide_eq_true_eq] at h
  exact h.1

theorem Memory.wf_iff (m : Memory) :
    m.wf = true ↔ (1 ≤ m.size ∧ m.size ≤ 4294967296) ∧ canonicalFrom m.size 0 m.cells = true := by
  simp only [Memory.wf, Bool.and_eq_true, decide_eq_true_eq]
  exact Iff.rfl

@[simp] theorem Memory.size_set (m : Memory) (a : Nat) (b : Byte) : (m.set a b).size = m.size := by
  unfold Memory.set; split <;> rfl

/-- Read after write of one byte (R50). -/
theorem Memory.get_set {m : Memory} (h : m.wf = true) {a : Nat} (ha : a < m.size) (b : Byte) (a' : Nat) :
    (m.set a b).get a' = if a' = a then b else m.get a' := by
  rw [Memory.set, if_pos ha]
  exact lookupCell_storeCell (Memory.wf_canonical h) a a' b

theorem Memory.get_set_ne {m : Memory} (h : m.wf = true) {a a' : Nat} (hne : a' ≠ a) (b : Byte) : (m.set a b).get a' = m.get a' := by
  by_cases ha : a < m.size
  · rw [Memory.get_set h ha, if_neg hne]
  · rw [Memory.set, if_neg ha]

/-- A write of one byte keeps the canonical form. -/
theorem Memory.wf_set {m : Memory} (h : m.wf = true) (a : Nat) (b : Byte) : (m.set a b).wf = true := by
  by_cases ha : a < m.size
  · rw [Memory.wf_iff] at h ⊢
    rw [Memory.set, if_pos ha]
    exact ⟨h.1, canonicalFrom_storeCell h.2 b (Nat.zero_le a) ha⟩
  · rwa [Memory.set, if_neg ha]

/-- Equal memories are equal data. -/
theorem Memory.ext_of_wf {m n : Memory} (hm : m.wf = true) (hn : n.wf = true) (hs : m.size = n.size)
    (h : ∀ a, m.get a = n.get a) : m = n := by
  have hc := canonicalFrom_ext (Memory.wf_canonical hm) (hs ▸ Memory.wf_canonical hn) h
  cases m; cases n
  simp only [Memory.mk.injEq] at *
  exact ⟨hs, hc⟩

/-! ## Runs of bytes -/

@[simp] theorem Memory.length_readBytes (m : Memory) (a n : Nat) : (m.readBytes a n).length = n := by
  induction n generalizing a with
  | zero => rfl
  | succ n ih => simp [Memory.readBytes, ih]

@[simp] theorem Memory.size_writeBytes (m : Memory) (a : Nat) (bs : List Byte) : (m.writeBytes a bs).size = m.size := by
  induction bs generalizing m a with
  | nil => rfl
  | cons b bs ih => rw [Memory.writeBytes, ih, Memory.size_set]

theorem Memory.wf_writeBytes {m : Memory} (h : m.wf = true) (a : Nat) (bs : List Byte) : (m.writeBytes a bs).wf = true := by
  induction bs generalizing m a with
  | nil => exact h
  | cons b bs ih => exact ih (Memory.wf_set h a b) (a + 1)

/-- A run of written bytes leaves every byte outside it (R50). -/
theorem Memory.get_writeBytes_outside {m : Memory} (h : m.wf = true) (a : Nat) (bs : List Byte) {a' : Nat}
    (ho : a' < a ∨ a + bs.length ≤ a') : (m.writeBytes a bs).get a' = m.get a' := by
  induction bs generalizing m a with
  | nil => rfl
  | cons b bs ih =>
    rw [List.length_cons] at ho
    rw [Memory.writeBytes, ih (Memory.wf_set h a b) (a + 1) (by omega), Memory.get_set_ne h (by omega)]

/-- Byte k of a run of written bytes is the run's byte k (R42). -/
theorem Memory.get_writeBytes_inside {m : Memory} (h : m.wf = true) (a : Nat) (bs : List Byte) (hfit : a + bs.length ≤ m.size)
    {k : Nat} (hk : k < bs.length) : (m.writeBytes a bs).get (a + k) = bs[k] := by
  induction bs generalizing m a k with
  | nil => simp at hk
  | cons b bs ih =>
    rw [List.length_cons] at hfit hk
    cases k with
    | zero =>
      rw [Memory.writeBytes, Memory.get_writeBytes_outside (Memory.wf_set h a b) (a + 1) bs (by omega), Nat.add_zero,
        Memory.get_set h (by omega), if_pos rfl, List.getElem_cons_zero]
    | succ k =>
      have := ih (Memory.wf_set h a b) (a + 1) (by rw [Memory.size_set]; omega) (k := k) (by omega)
      rw [Memory.writeBytes, show a + (k + 1) = a + 1 + k by omega, this, List.getElem_cons_succ]

theorem Memory.readBytes_congr {m n : Memory} {a c : Nat} (h : ∀ k, k < c → m.get (a + k) = n.get (a + k)) :
    m.readBytes a c = n.readBytes a c := by
  induction c generalizing a with
  | zero => rfl
  | succ c ih =>
    rw [Memory.readBytes, Memory.readBytes]
    congr 1
    · exact h 0 (by omega)
    · exact ih fun k hk => by
        have := h (k + 1) (by omega)
        rwa [show a + (k + 1) = a + 1 + k by omega] at this

/-- A run of bytes read where it was written gives it back (R50). -/
theorem Memory.readBytes_writeBytes {m : Memory} (h : m.wf = true) (a : Nat) (bs : List Byte) (hfit : a + bs.length ≤ m.size) :
    (m.writeBytes a bs).readBytes a bs.length = bs := by
  induction bs generalizing m a with
  | nil => rfl
  | cons b bs ih =>
    rw [List.length_cons] at hfit
    rw [List.length_cons, Memory.readBytes, Memory.writeBytes]
    congr 1
    · rw [Memory.get_writeBytes_outside (Memory.wf_set h a b) (a + 1) bs (by omega), Memory.get_set h (by omega), if_pos rfl]
    · exact ih (Memory.wf_set h a b) (a + 1) (by rw [Memory.size_set]; omega)

theorem Memory.leValue_readBytes_lt (m : Memory) (a n : Nat) : leValue (m.readBytes a n) < 256 ^ n := by
  have := leValue_lt (m.readBytes a n)
  rwa [Memory.length_readBytes] at this

/-! ## Arbitrary contents -/

theorem canonicalFrom_range' (size : Nat) (content : Nat → Byte) (lo n : Nat) (h : lo + n ≤ size) :
    canonicalFrom size lo ((List.range' lo n).filterMap fun a =>
      if content a = unlistedByte then none else some (a, content a)) = true := by
  induction n generalizing lo with
  | zero => rfl
  | succ n ih =>
    rw [List.range'_succ, List.filterMap_cons]
    have := ih (lo + 1) (by omega)
    by_cases hc : content lo = unlistedByte
    · simp only [hc, if_true]
      exact canonicalFrom_weaken this (by omega)
    · simp only [hc, if_false, canonicalFrom, Bool.and_eq_true, decide_eq_true_eq]
      exact ⟨⟨⟨le_refl _, by omega⟩, hc⟩, this⟩

theorem lookupCell_range' (content : Nat → Byte) (lo n a : Nat) :
    lookupCell ((List.range' lo n).filterMap fun a =>
      if content a = unlistedByte then none else some (a, content a)) a =
    if lo ≤ a ∧ a < lo + n then content a else unlistedByte := by
  induction n generalizing lo with
  | zero =>
    rw [if_neg (by omega)]
    rfl
  | succ n ih =>
    rw [List.range'_succ, List.filterMap_cons]
    by_cases hc : content lo = unlistedByte
    · simp only [hc, if_true]
      rw [ih]
      by_cases e : a = lo
      · subst e
        rw [if_neg (by omega), if_pos (by omega), hc]
      · by_cases hin : lo + 1 ≤ a ∧ a < lo + 1 + n
        · rw [if_pos hin, if_pos (by omega)]
        · rw [if_neg hin, if_neg (by omega)]
    · simp only [hc, if_false]
      rw [lookupCell, ih]
      by_cases e : lo = a
      · subst e
        rw [if_pos rfl, if_pos (by omega)]
      · rw [if_neg e]
        by_cases hin : lo + 1 ≤ a ∧ a < lo + 1 + n
        · rw [if_pos hin, if_pos (by omega)]
        · rw [if_neg hin, if_neg (by omega)]

/-- Every content is some memory's: each address below the size holds the byte it is given (D5). -/
theorem Memory.get_ofContents (size : Nat) (content : Nat → Byte) {a : Nat} (h : a < size) :
    (Memory.ofContents size content).get a = content a := by
  unfold Memory.ofContents Memory.get
  rw [List.range_eq_range', lookupCell_range', if_pos (by omega)]

theorem Memory.wf_ofContents {size : Nat} (h1 : 1 ≤ size) (h2 : size ≤ 4294967296) (content : Nat → Byte) :
    (Memory.ofContents size content).wf = true := by
  rw [Memory.wf_iff]
  refine ⟨⟨h1, h2⟩, ?_⟩
  unfold Memory.ofContents
  rw [List.range_eq_range']
  exact canonicalFrom_range' size content 0 size (by omega)

/-! ## The loader -/

@[simp] theorem size_loadWordsFrom (m : Memory) (a : Nat) (ws : List Word) : (loadWordsFrom m a ws).size = m.size := by
  induction ws generalizing m a with
  | nil => rfl
  | cons w ws ih => rw [loadWordsFrom, ih]; split <;> simp

theorem wf_loadWordsFrom {m : Memory} (h : m.wf = true) (a : Nat) (ws : List Word) : (loadWordsFrom m a ws).wf = true := by
  induction ws generalizing m a with
  | nil => exact h
  | cons w ws ih =>
    rw [loadWordsFrom]
    split
    · exact ih (Memory.wf_writeBytes h _ _) _
    · exact ih h _

end Sys2Proof.Machine
end

