-- ==== Sys2Proof/Laws/State.lean ====
section
/-! SUPPORT. One lemma per field of State and update of State, for the simplifier. -/

namespace Sys2Proof.Machine

section writeReg

variable (i : RegIdx) (v : Word) (s : State)

@[simp] theorem writeReg_pc : (s.writeReg i v).pc = s.pc := by unfold State.writeReg; split <;> rfl
@[simp] theorem writeReg_imem : (s.writeReg i v).imem = s.imem := by unfold State.writeReg; split <;> rfl
@[simp] theorem writeReg_dmem : (s.writeReg i v).dmem = s.dmem := by unfold State.writeReg; split <;> rfl
@[simp] theorem writeReg_halted : (s.writeReg i v).halted = s.halted := by unfold State.writeReg; split <;> rfl
@[simp] theorem writeReg_instructionCount : (s.writeReg i v).instructionCount = s.instructionCount := by
  unfold State.writeReg; split <;> rfl
@[simp] theorem writeReg_haltCause : (s.writeReg i v).haltCause = s.haltCause := by unfold State.writeReg; split <;> rfl
@[simp] theorem writeReg_zero : s.writeReg 0#5 v = s := rfl

/-- The storage cell of x0 is never written. -/
@[simp] theorem writeReg_cell : (s.writeReg i v).regs[0] = s.regs[0] := by
  unfold State.writeReg
  split
  · rfl
  · next h =>
    have hi : i.toNat < 32 := i.isLt
    have hne : i.toNat ≠ 0 := fun e => h (BitVec.eq_of_toNat_eq e)
    simp [Vector.getElem_set_ne, hne]

end writeReg

@[simp] theorem readReg_zero (s : State) : s.readReg 0#5 = 0#32 := rfl

/-- A register read after a register write (R17, R18). -/
theorem readReg_writeReg (i j : RegIdx) (v : Word) (s : State) :
    (s.writeReg i v).readReg j = if j = 0#5 then 0#32 else if j = i then v else s.readReg j := by
  unfold State.readReg State.writeReg
  by_cases hj : j = 0#5
  · simp [hj]
  · by_cases hi : i = 0#5
    · have hji : j ≠ i := fun e => hj (e.trans hi)
      simp [hi, hj]
    · by_cases hij : j = i
      · subst hij; simp [hj]
      · have hne : i.toNat ≠ j.toNat := fun e => hij (BitVec.eq_of_toNat_eq e.symm)
        have hj' : j.toNat < 32 := j.isLt
        simp [hi, hj, hij, Vector.getElem_set_ne, hne]

@[simp] theorem readReg_writeReg_ne {i j : RegIdx} (h : j ≠ i) (v : Word) (s : State) :
    (s.writeReg i v).readReg j = s.readReg j := by
  rw [readReg_writeReg]
  by_cases hj : j = 0#5
  · simp [hj]
  · simp [hj, h]

/-- Registers are read from regs alone. -/
theorem readReg_congr {s t : State} (h : t.regs = s.regs) (i : RegIdx) : t.readReg i = s.readReg i := by
  unfold State.readReg; simp only [h]

section setPc

variable (p : Word) (s : State)

@[simp] theorem setPc_pc : (s.setPc p).pc = p := rfl
@[simp] theorem setPc_regs : (s.setPc p).regs = s.regs := rfl
@[simp] theorem setPc_readReg (i : RegIdx) : (s.setPc p).readReg i = s.readReg i := rfl
@[simp] theorem setPc_imem : (s.setPc p).imem = s.imem := rfl
@[simp] theorem setPc_dmem : (s.setPc p).dmem = s.dmem := rfl
@[simp] theorem setPc_halted : (s.setPc p).halted = s.halted := rfl
@[simp] theorem setPc_instructionCount : (s.setPc p).instructionCount = s.instructionCount := rfl
@[simp] theorem setPc_haltCause : (s.setPc p).haltCause = s.haltCause := rfl

end setPc

section countExecuted

variable (s : State)

@[simp] theorem countExecuted_pc : s.countExecuted.pc = s.pc := rfl
@[simp] theorem countExecuted_regs : s.countExecuted.regs = s.regs := rfl
@[simp] theorem countExecuted_readReg (i : RegIdx) : s.countExecuted.readReg i = s.readReg i := rfl
@[simp] theorem countExecuted_imem : s.countExecuted.imem = s.imem := rfl
@[simp] theorem countExecuted_dmem : s.countExecuted.dmem = s.dmem := rfl
@[simp] theorem countExecuted_halted : s.countExecuted.halted = s.halted := rfl
@[simp] theorem countExecuted_instructionCount : s.countExecuted.instructionCount = s.instructionCount + 1#64 := rfl
@[simp] theorem countExecuted_haltCause : s.countExecuted.haltCause = s.haltCause := rfl

end countExecuted

section halt

variable (c : HaltCause) (s : State)

@[simp] theorem halt_pc : (s.halt c).pc = s.pc := rfl
@[simp] theorem halt_regs : (s.halt c).regs = s.regs := rfl
@[simp] theorem halt_readReg (i : RegIdx) : (s.halt c).readReg i = s.readReg i := rfl
@[simp] theorem halt_imem : (s.halt c).imem = s.imem := rfl
@[simp] theorem halt_dmem : (s.halt c).dmem = s.dmem := rfl
@[simp] theorem halt_halted : (s.halt c).halted = true := rfl
@[simp] theorem halt_instructionCount : (s.halt c).instructionCount = s.instructionCount := rfl
@[simp] theorem halt_haltCause : (s.halt c).haltCause = if s.haltCause = .none then c else s.haltCause := rfl

/-- The first cause is kept: a second halt changes nothing (R27). -/
theorem halt_halt {c : HaltCause} (hc : c ≠ .none) (d : HaltCause) (s : State) : (s.halt c).halt d = s.halt c := by
  unfold State.halt
  by_cases h : s.haltCause = .none <;> simp [h, hc]

@[simp] theorem raise_halt (f : FaultInfo) (d : HaltCause) (s : State) : (s.raise f).halt d = s.raise f :=
  halt_halt (by simp) d s

@[simp] theorem halt_mem (sp : Space) : (s.halt c).mem sp = s.mem sp := by cases sp <;> rfl

end halt

section raise

variable (f : FaultInfo) (s : State)

@[simp] theorem raise_pc : (s.raise f).pc = s.pc := rfl
@[simp] theorem raise_regs : (s.raise f).regs = s.regs := rfl
@[simp] theorem raise_readReg (i : RegIdx) : (s.raise f).readReg i = s.readReg i := rfl
@[simp] theorem raise_imem : (s.raise f).imem = s.imem := rfl
@[simp] theorem raise_dmem : (s.raise f).dmem = s.dmem := rfl
@[simp] theorem raise_halted : (s.raise f).halted = true := rfl
@[simp] theorem raise_instructionCount : (s.raise f).instructionCount = s.instructionCount := rfl
@[simp] theorem raise_haltCause : (s.raise f).haltCause = if s.haltCause = .none then .fault f else s.haltCause := rfl
@[simp] theorem raise_mem (sp : Space) : (s.raise f).mem sp = s.mem sp := by cases sp <;> rfl

end raise

section setMem

variable (sp : Space) (m : Memory) (s : State)

@[simp] theorem setMem_pc : (s.setMem sp m).pc = s.pc := by cases sp <;> rfl
@[simp] theorem setMem_regs : (s.setMem sp m).regs = s.regs := by cases sp <;> rfl
@[simp] theorem setMem_readReg (i : RegIdx) : (s.setMem sp m).readReg i = s.readReg i := by cases sp <;> rfl
@[simp] theorem setMem_halted : (s.setMem sp m).halted = s.halted := by cases sp <;> rfl
@[simp] theorem setMem_instructionCount : (s.setMem sp m).instructionCount = s.instructionCount := by cases sp <;> rfl
@[simp] theorem setMem_haltCause : (s.setMem sp m).haltCause = s.haltCause := by cases sp <;> rfl
@[simp] theorem setMem_mem_same : (s.setMem sp m).mem sp = m := by cases sp <;> rfl
@[simp] theorem setMem_imem_imem : (s.setMem .imem m).imem = m := rfl
@[simp] theorem setMem_imem_dmem : (s.setMem .imem m).dmem = s.dmem := rfl
@[simp] theorem setMem_dmem_imem : (s.setMem .dmem m).imem = s.imem := rfl
@[simp] theorem setMem_dmem_dmem : (s.setMem .dmem m).dmem = m := rfl

theorem setMem_mem_ne {sp' : Space} (h : sp' ≠ sp) : (s.setMem sp m).mem sp' = s.mem sp' := by
  cases sp <;> cases sp' <;> first | rfl | exact absurd rfl h

end setMem

section commit

variable (rd : RegIdx) (r : Word) (s : State)

@[simp] theorem commit_pc : (s.commit rd r).pc = s.pc + 4#32 := rfl
@[simp] theorem commit_readReg (i : RegIdx) : (s.commit rd r).readReg i = (s.writeReg rd r).readReg i := rfl
@[simp] theorem commit_imem : (s.commit rd r).imem = s.imem := by simp [State.commit]
@[simp] theorem commit_dmem : (s.commit rd r).dmem = s.dmem := by simp [State.commit]
@[simp] theorem commit_halted : (s.commit rd r).halted = s.halted := by simp [State.commit]
@[simp] theorem commit_instructionCount : (s.commit rd r).instructionCount = s.instructionCount := by simp [State.commit]
@[simp] theorem commit_haltCause : (s.commit rd r).haltCause = s.haltCause := by simp [State.commit]
@[simp] theorem commit_mem (sp : Space) : (s.commit rd r).mem sp = s.mem sp := by cases sp <;> simp [State.mem]

end commit

section hostReset

variable (s : State)

@[simp] theorem hostReset_pc : s.hostReset.pc = 0#32 := rfl
@[simp] theorem hostReset_imem : s.hostReset.imem = s.imem := rfl
@[simp] theorem hostReset_dmem : s.hostReset.dmem = s.dmem := rfl
@[simp] theorem hostReset_halted : s.hostReset.halted = false := rfl
@[simp] theorem hostReset_instructionCount : s.hostReset.instructionCount = 0#64 := rfl
@[simp] theorem hostReset_haltCause : s.hostReset.haltCause = .none := rfl

@[simp] theorem hostReset_readReg (i : RegIdx) : s.hostReset.readReg i = 0#32 := by
  unfold State.readReg
  split
  · rfl
  · next h =>
    have h0 : 0 ≠ i.toNat := fun e => h (BitVec.eq_of_toNat_eq e.symm)
    have hi : i.toNat < 32 := i.isLt
    simp [State.hostReset, Vector.getElem_set_ne, h0]

end hostReset

section pcCheck

variable (s : State)

@[simp] theorem pcCheck_pc : s.pcCheck.pc = s.pc := by unfold State.pcCheck; split <;> rfl
@[simp] theorem pcCheck_regs : s.pcCheck.regs = s.regs := by unfold State.pcCheck; split <;> rfl
@[simp] theorem pcCheck_readReg (i : RegIdx) : s.pcCheck.readReg i = s.readReg i := by unfold State.pcCheck; split <;> rfl
@[simp] theorem pcCheck_imem : s.pcCheck.imem = s.imem := by unfold State.pcCheck; split <;> rfl
@[simp] theorem pcCheck_dmem : s.pcCheck.dmem = s.dmem := by unfold State.pcCheck; split <;> rfl
@[simp] theorem pcCheck_instructionCount : s.pcCheck.instructionCount = s.instructionCount := by
  unfold State.pcCheck; split <;> rfl

end pcCheck

@[simp] theorem mem_imem (s : State) : s.mem .imem = s.imem := rfl
@[simp] theorem mem_dmem (s : State) : s.mem .dmem = s.dmem := rfl

end Sys2Proof.Machine
end

