-- ==== Sys2Proof/Laws/Ops.lean ====
section
/-! SUPPORT. What each shared operation can do, said once: the two tests of a checked access, a checked read and write, the fetch, the
R-type shape, the check of `run`; and that each keeps the state's invariant. -/

namespace Sys2Proof.Machine

theorem Width.bytes_pos (w : Width) : 1 ≤ w.bytes := by cases w <;> decide

/-- The three answers of the two tests, bounds first (R43, R45, R46). -/
theorem accessFault_cases (s : State) (sp : Space) (a : Addr) (w : Width) :
    ((s.mem sp).size ≤ a.toNat + w.bytes - 1 ∧ s.accessFault sp a w = some (.outOfBounds sp a w)) ∨
    (a.toNat + w.bytes ≤ (s.mem sp).size ∧ 1 < w.bytes ∧ a.toNat % w.bytes ≠ 0 ∧
      s.accessFault sp a w = some (.misaligned sp a w)) ∨
    (a.toNat + w.bytes ≤ (s.mem sp).size ∧ a.toNat % w.bytes = 0 ∧ s.accessFault sp a w = none) := by
  have hw := w.bytes_pos
  unfold State.accessFault
  by_cases hb : (s.mem sp).size ≤ a.toNat + w.bytes - 1
  · exact .inl ⟨hb, if_pos hb⟩
  · rw [if_neg hb]
    by_cases hm : 1 < w.bytes ∧ a.toNat % w.bytes ≠ 0
    · exact .inr (.inl ⟨by omega, hm.1, hm.2, if_pos hm⟩)
    · refine .inr (.inr ⟨by omega, ?_, if_neg hm⟩)
      by_cases h1 : 1 < w.bytes
      · by_contra h2
        exact hm ⟨h1, h2⟩
      · have : w.bytes = 1 := by omega
        rw [this, Nat.mod_one]

/-- An access that passes both tests is inside the memory. -/
theorem accessFault_none {s : State} {sp : Space} {a : Addr} {w : Width} (h : s.accessFault sp a w = none) :
    a.toNat + w.bytes ≤ (s.mem sp).size ∧ a.toNat % w.bytes = 0 := by
  rcases accessFault_cases s sp a w with ⟨_, e⟩ | ⟨_, _, _, e⟩ | ⟨hb, hm, _⟩
  · rw [e] at h; cases h
  · rw [e] at h; cases h
  · exact ⟨hb, hm⟩

/-- The tests read the size of the memory and nothing else of the state. -/
theorem accessFault_congr {s t : State} {sp : Space} (h : (t.mem sp).size = (s.mem sp).size) (a : Addr) (w : Width) :
    t.accessFault sp a w = s.accessFault sp a w := by
  unfold State.accessFault
  rw [h]

theorem memRead_fault {s : State} {sp : Space} {a : Addr} {w : Width} {f : FaultInfo} (h : s.accessFault sp a w = some f) :
    s.memRead sp a w = (0, s.raise f) := by
  rw [State.memRead, h]

theorem memRead_ok {s : State} {sp : Space} {a : Addr} {w : Width} (h : s.accessFault sp a w = none) :
    s.memRead sp a w = (leValue ((s.mem sp).readBytes a.toNat w.bytes), s) := by
  rw [State.memRead, h]

theorem memWrite_fault {s : State} {sp : Space} {a : Addr} {w : Width} {f : FaultInfo} (h : s.accessFault sp a w = some f)
    (v : Nat) : s.memWrite sp a w v = s.raise f := by
  rw [State.memWrite, h]

theorem memWrite_ok {s : State} {sp : Space} {a : Addr} {w : Width} (h : s.accessFault sp a w = none) (v : Nat) :
    s.memWrite sp a w v = s.setMem sp ((s.mem sp).writeBytes a.toNat (leBytes w.bytes v)) := by
  rw [State.memWrite, h]

/-- All that a fetch can do: fault, with 0 delivered, or deliver the word at the pc and change nothing (R51). -/
theorem fetch_cases (s : State) :
    (∃ f, s.accessFault .imem s.pc .word = some f ∧ s.fetch = (haltWord, s.raise f)) ∨
    (s.accessFault .imem s.pc .word = none ∧ s.fetch = (s.nextWord, s)) := by
  unfold State.fetch
  cases h : s.accessFault .imem s.pc .word with
  | some f => exact .inl ⟨f, rfl, by rw [memRead_fault h]; rfl⟩
  | none => exact .inr ⟨rfl, by rw [memRead_ok h]; rfl⟩

/-- A fetch succeeds exactly at an aligned pc whose word is inside the memory (R22). -/
theorem fetchable_iff (s : State) : s.fetchable = true ↔ s.accessFault .imem s.pc .word = none := by
  have hb : Width.word.bytes = 4 := rfl
  rcases accessFault_cases s .imem s.pc .word with ⟨h, e⟩ | ⟨_, _, h, e⟩ | ⟨h1, h2, e⟩ <;> rw [e] <;>
    simp only [State.fetchable, Bool.and_eq_true, decide_eq_true_eq, hb, mem_imem] at * <;> simp <;> omega

theorem fetch_ok {s : State} (h : s.fetchable = true) : s.fetch = (s.nextWord, s) := by
  rcases fetch_cases s with ⟨f, e, _⟩ | ⟨_, e⟩
  · rw [(fetchable_iff s).mp h] at e; cases e
  · exact e

/-! ## The invariant -/

theorem State.Inv.of_fields {s t : State} (h : s.Inv) (hi : t.imem.wf = true) (hd : t.dmem.wf = true) (hh : t.halted = s.halted)
    (hc : t.haltCause = s.haltCause) : t.Inv :=
  ⟨hi, hd, by rw [hh, hc]; exact h.causeRecorded⟩

theorem State.Inv.halt {s : State} (h : s.Inv) {c : HaltCause} (hc : c ≠ .none) : (s.halt c).Inv := by
  refine ⟨h.imemWf, h.dmemWf, ?_⟩
  by_cases e : s.haltCause = .none <;> simp [e, hc]

theorem State.Inv.raise {s : State} (h : s.Inv) (f : FaultInfo) : (s.raise f).Inv := h.halt (by simp)

theorem State.Inv.commit {s : State} (h : s.Inv) (rd : RegIdx) (r : Word) : (s.commit rd r).Inv :=
  h.of_fields (by simpa using h.imemWf) (by simpa using h.dmemWf) (by simp) (by simp)

theorem State.Inv.countExecuted {s : State} (h : s.Inv) : s.countExecuted.Inv :=
  ⟨h.imemWf, h.dmemWf, h.causeRecorded⟩

theorem State.Inv.writeReg {s : State} (h : s.Inv) (i : RegIdx) (v : Word) : (s.writeReg i v).Inv :=
  h.of_fields (by simpa using h.imemWf) (by simpa using h.dmemWf) (by simp) (by simp)

theorem State.Inv.setPc {s : State} (h : s.Inv) (p : Word) : (s.setPc p).Inv :=
  ⟨h.imemWf, h.dmemWf, h.causeRecorded⟩

theorem State.Inv.mem_wf {s : State} (h : s.Inv) (sp : Space) : (s.mem sp).wf = true := by
  cases sp
  · exact h.imemWf
  · exact h.dmemWf

theorem State.Inv.setMem {s : State} (h : s.Inv) (sp : Space) {m : Memory} (hm : m.wf = true) : (s.setMem sp m).Inv := by
  cases sp
  · exact ⟨hm, h.dmemWf, h.causeRecorded⟩
  · exact ⟨h.imemWf, hm, h.causeRecorded⟩

theorem State.Inv.memRead {s : State} (h : s.Inv) (sp : Space) (a : Addr) (w : Width) : (s.memRead sp a w).2.Inv := by
  cases e : s.accessFault sp a w with
  | some f => rw [memRead_fault e]; exact h.raise f
  | none => rw [memRead_ok e]; exact h

theorem State.Inv.memWrite {s : State} (h : s.Inv) (sp : Space) (a : Addr) (w : Width) (v : Nat) : (s.memWrite sp a w v).Inv := by
  cases e : s.accessFault sp a w with
  | some f => rw [memWrite_fault e]; exact h.raise f
  | none => rw [memWrite_ok e]; exact h.setMem sp (Memory.wf_writeBytes (h.mem_wf sp) _ _)

theorem State.Inv.pcCheck {s : State} (h : s.Inv) : s.pcCheck.Inv := by
  unfold State.pcCheck
  split
  · exact h.halt (by simp)
  · exact h

theorem State.Inv.hostReset {s : State} (h : s.Inv) : s.hostReset.Inv := ⟨h.imemWf, h.dmemWf, by simp⟩

/-- The constant State.reset is the state of a machine constructed with the sizes of Config and zeroed contents and then reset (R126,
R127). -/
theorem reset_eq_constructed :
    State.reset = (constructed Config.resetImemSize Config.resetDmemSize (fun _ => 0) (fun _ => 0)).hostReset := by
  have h : ∀ n, ((List.range n).filterMap fun a => if (0 : Byte) = unlistedByte then none else some (a, (0 : Byte))) = [] := by
    intro n
    simp [unlistedByte]
  unfold State.reset constructed State.hostReset Memory.ofContents
  simp only [h]
  congr 1

end Sys2Proof.Machine
end

