-- ==== Sys2Proof/Laws/PerInstr.lean ====
section
/-! SUPPORT. Statements made per instruction: one lemma per constructor of Instr. -/

namespace Sys2Proof.Laws

/-- The Decoded Instruction an instruction stands for is one the decoder can give (R69, R70). -/
def DecodedWellFormed.Statement (i : Instr) : Prop := i.wellFormed = true

theorem DecodedWellFormed.add (rd rs1 rs2 : RegIdx) : DecodedWellFormed.Statement (.add rd rs1 rs2) := rfl
theorem DecodedWellFormed.sub (rd rs1 rs2 : RegIdx) : DecodedWellFormed.Statement (.sub rd rs1 rs2) := rfl
theorem DecodedWellFormed.sll (rd rs1 rs2 : RegIdx) (f : Funct7) : DecodedWellFormed.Statement (.sll rd rs1 rs2 f) := rfl
theorem DecodedWellFormed.slt (rd rs1 rs2 : RegIdx) (f : Funct7) : DecodedWellFormed.Statement (.slt rd rs1 rs2 f) := rfl
theorem DecodedWellFormed.sltu (rd rs1 rs2 : RegIdx) (f : Funct7) : DecodedWellFormed.Statement (.sltu rd rs1 rs2 f) := rfl
theorem DecodedWellFormed.xor (rd rs1 rs2 : RegIdx) (f : Funct7) : DecodedWellFormed.Statement (.xor rd rs1 rs2 f) := rfl
theorem DecodedWellFormed.srl (rd rs1 rs2 : RegIdx) : DecodedWellFormed.Statement (.srl rd rs1 rs2) := rfl
theorem DecodedWellFormed.sra (rd rs1 rs2 : RegIdx) : DecodedWellFormed.Statement (.sra rd rs1 rs2) := rfl
theorem DecodedWellFormed.or (rd rs1 rs2 : RegIdx) (f : Funct7) : DecodedWellFormed.Statement (.or rd rs1 rs2 f) := rfl
theorem DecodedWellFormed.and (rd rs1 rs2 : RegIdx) (f : Funct7) : DecodedWellFormed.Statement (.and rd rs1 rs2 f) := rfl
theorem DecodedWellFormed.halt : DecodedWellFormed.Statement .halt := rfl

/-- Decoding the fields of an instruction's word gives the Decoded Instruction it stands for (R67 to R71). -/
def FieldsRoundTrip.Statement (i : Instr) : Prop := decodeFields (encode i) = i.decoded

/-- The fields of an R-type word are the ones it was made of (R66, R69). -/
theorem decodeFields_encodeFields (f7 : Funct7) (rs2 rs1 : RegIdx) (f3 : Funct3) (rd : RegIdx) :
    decodeFields (encodeFields f7 rs2 rs1 f3 rd 0x33) = .ofRType f7 rs2 rs1 f3 rd := by
  rw [decodeFields_rType (by simp [rTypeOpcode])]
  simp

theorem FieldsRoundTrip.add (rd rs1 rs2 : RegIdx) : FieldsRoundTrip.Statement (.add rd rs1 rs2) :=
  decodeFields_encodeFields _ _ _ _ _
theorem FieldsRoundTrip.sub (rd rs1 rs2 : RegIdx) : FieldsRoundTrip.Statement (.sub rd rs1 rs2) :=
  decodeFields_encodeFields _ _ _ _ _
theorem FieldsRoundTrip.sll (rd rs1 rs2 : RegIdx) (f : Funct7) : FieldsRoundTrip.Statement (.sll rd rs1 rs2 f) :=
  decodeFields_encodeFields _ _ _ _ _
theorem FieldsRoundTrip.slt (rd rs1 rs2 : RegIdx) (f : Funct7) : FieldsRoundTrip.Statement (.slt rd rs1 rs2 f) :=
  decodeFields_encodeFields _ _ _ _ _
theorem FieldsRoundTrip.sltu (rd rs1 rs2 : RegIdx) (f : Funct7) : FieldsRoundTrip.Statement (.sltu rd rs1 rs2 f) :=
  decodeFields_encodeFields _ _ _ _ _
theorem FieldsRoundTrip.xor (rd rs1 rs2 : RegIdx) (f : Funct7) : FieldsRoundTrip.Statement (.xor rd rs1 rs2 f) :=
  decodeFields_encodeFields _ _ _ _ _
theorem FieldsRoundTrip.srl (rd rs1 rs2 : RegIdx) : FieldsRoundTrip.Statement (.srl rd rs1 rs2) :=
  decodeFields_encodeFields _ _ _ _ _
theorem FieldsRoundTrip.sra (rd rs1 rs2 : RegIdx) : FieldsRoundTrip.Statement (.sra rd rs1 rs2) :=
  decodeFields_encodeFields _ _ _ _ _
theorem FieldsRoundTrip.or (rd rs1 rs2 : RegIdx) (f : Funct7) : FieldsRoundTrip.Statement (.or rd rs1 rs2 f) :=
  decodeFields_encodeFields _ _ _ _ _
theorem FieldsRoundTrip.and (rd rs1 rs2 : RegIdx) (f : Funct7) : FieldsRoundTrip.Statement (.and rd rs1 rs2 f) :=
  decodeFields_encodeFields _ _ _ _ _
theorem FieldsRoundTrip.halt : FieldsRoundTrip.Statement .halt := by
  unfold FieldsRoundTrip.Statement
  decide

end Sys2Proof.Laws
end

