-- ==== Sys2Proof/Laws/Step.lean ====
section
/-! SUPPORT. The inversion lemmas of an instruction, of a step, of an iteration of `run` and of a transaction: what each can do, said once. -/

namespace Sys2Proof.Machine

/-- An instruction other than HALT is the shared R-type shape, on its own operands and with an operation of its own. -/
theorem exec_rType {i : Instr} (h : i ≠ .halt) :
    ∃ op, ∀ s, exec i s = execRType op i.decoded.rd i.decoded.rs1 i.decoded.rs2 s := by
  cases i with
  | add rd rs1 rs2 => exact ⟨_, fun _ => rfl⟩
  | sub rd rs1 rs2 => exact ⟨_, fun _ => rfl⟩
  | sll rd rs1 rs2 f => exact ⟨fun a b => a <<< shiftAmount b, fun _ => rfl⟩
  | slt rd rs1 rs2 f => exact ⟨fun a b => truthWord (signedLess a b), fun _ => rfl⟩
  | sltu rd rs1 rs2 f => exact ⟨fun a b => truthWord (unsignedLess a b), fun _ => rfl⟩
  | xor rd rs1 rs2 f => exact ⟨_, fun _ => rfl⟩
  | srl rd rs1 rs2 => exact ⟨fun a b => a >>> shiftAmount b, fun _ => rfl⟩
  | sra rd rs1 rs2 => exact ⟨fun a b => a.sshiftRight (shiftAmount b), fun _ => rfl⟩
  | or rd rs1 rs2 f => exact ⟨_, fun _ => rfl⟩
  | and rd rs1 rs2 f => exact ⟨_, fun _ => rfl⟩
  | halt => exact absurd rfl h

/-- All that an instruction can do: HALT halts, each of the ten commits one result to its destination. -/
theorem exec_cases (i : Instr) (s : State) :
    (i = .halt ∧ exec i s = .next (s.halt .haltWord)) ∨
    (i ≠ .halt ∧ ∃ v, exec i s = .next (s.commit i.decoded.rd v)) := by
  by_cases h : i = .halt
  · subst h; exact .inl ⟨rfl, rfl⟩
  · obtain ⟨op, he⟩ := exec_rType h
    exact .inr ⟨h, _, he s⟩

/-- All that a step can do, with the condition of each case (R100, R116). -/
theorem step_cases (s : State) :
    (s.halted = true ∧ step s = .next s) ∨
    (s.halted = false ∧ ∃ f, s.accessFault .imem s.pc .word = some f ∧ step s = .next (s.raise f)) ∨
    (s.halted = false ∧ s.fetchable = true ∧ s.nextWord = haltWord ∧ step s = .next (s.halt .haltWord)) ∨
    (s.halted = false ∧ s.fetchable = true ∧ ∃ r, decode s.nextWord = .error r ∧
      step s = .next (s.raise (rejectFault r)).countExecuted) ∨
    (s.halted = false ∧ s.fetchable = true ∧ ∃ i v, decode s.nextWord = .ok i ∧ i ≠ .halt ∧
      exec i s = .next (s.commit i.decoded.rd v) ∧ step s = .next (s.commit i.decoded.rd v).countExecuted) := by
  unfold step stepOnce
  by_cases hh : s.halted = true
  · exact .inl ⟨hh, by rw [if_pos hh]⟩
  · have hf : s.halted = false := by simpa using hh
    rw [if_neg hh]
    rcases fetch_cases s with ⟨f, ha, e⟩ | ⟨ha, e⟩
    · refine .inr (.inl ⟨hf, f, ha, ?_⟩)
      rw [e, stepFetched, if_pos rfl]
      exact congrArg _ (raise_halt f _ s)
    · have hok := (fetchable_iff s).mpr ha
      rw [e, stepFetched]
      by_cases h0 : s.nextWord = haltWord
      · exact .inr (.inr (.inl ⟨hf, hok, h0, by rw [if_pos h0]; rfl⟩))
      · have hd : decode s.nextWord = (decodeFields s.nextWord).toInstr := by rw [decode, if_neg h0]
        rw [if_neg h0, executeDecoded, ← hd]
        cases hx : decode s.nextWord with
        | error r => exact .inr (.inr (.inr (.inl ⟨hf, hok, r, rfl, rfl⟩)))
        | ok i =>
          have hi : i ≠ .halt := fun e => h0 ((decode_ne_halt_iff _ _ hx).mp e)
          rcases exec_cases i s with ⟨e, _⟩ | ⟨_, v, he⟩
          · exact absurd e hi
          · refine .inr (.inr (.inr (.inr ⟨hf, hok, i, v, rfl, hi, he, ?_⟩)))
            simp only [he, countAfter]

/-- A step answers a next state, and that state is one of four shapes. -/
theorem step_shape (s : State) :
    ∃ t, step s = .next t ∧
      (t = s ∨ (∃ c, c ≠ .none ∧ t = s.halt c) ∨ (∃ f, t = (s.raise f).countExecuted) ∨
        ∃ rd v, t = (s.commit rd v).countExecuted) := by
  rcases step_cases s with ⟨_, h⟩ | ⟨_, f, _, h⟩ | ⟨_, _, _, h⟩ | ⟨_, _, r, _, h⟩ | ⟨_, _, i, v, _, _, _, h⟩
  · exact ⟨_, h, .inl rfl⟩
  · exact ⟨_, h, .inr (.inl ⟨.fault f, by simp, rfl⟩)⟩
  · exact ⟨_, h, .inr (.inl ⟨.haltWord, by simp, rfl⟩)⟩
  · exact ⟨_, h, .inr (.inr (.inl ⟨_, rfl⟩))⟩
  · exact ⟨_, h, .inr (.inr (.inr ⟨_, v, rfl⟩))⟩

/-- An iteration of `run` is a step and then the check. -/
theorem runIteration_of_step {s t : State} (h : step s = .next t) : runIteration s = .next t.pcCheck := by
  rw [runIteration, h]

/-- All that a transaction which answers a next state can do. -/
theorem transact_cases {x : Transaction} {s t : State} (h : transact x s = .next t) :
    (x = .step ∧ step s = .next t) ∨
    (x = .iterate ∧ ((s.halted = true ∧ t = s) ∨ (s.halted = false ∧ ∃ u, step s = .next u ∧ t = u.pcCheck))) ∨
    (x = .reset ∧ t = s.hostReset) ∨
    (∃ v, x = .setPc v ∧ t = s.setPc v) ∨
    (∃ index v, x = .setRegister index v ∧ t = (setRegister index v s).2) ∨
    (∃ sp a w, x = .read sp a w ∧ t = (s.memRead sp a w).2) ∨
    (∃ sp a w v, x = .write sp a w v ∧ v < 2 ^ (8 * w.bytes) ∧ t = s.memWrite sp a w v) ∨
    (∃ ws, x = .loadProgram ws ∧ t = loadProgram ws s) ∨
    (∃ bs, x = .loadFile bs ∧ t = (loadFile bs s).2) := by
  cases x with
  | step => exact .inl ⟨rfl, h⟩
  | iterate =>
    refine .inr (.inl ⟨rfl, ?_⟩)
    simp only [transact, iterateRun] at h
    split at h
    · next hh => cases h; exact .inl ⟨hh, rfl⟩
    · next hh =>
      obtain ⟨u, hu, _⟩ := step_shape s
      rw [runIteration_of_step hu] at h
      cases h
      exact .inr ⟨by simpa using hh, u, hu, rfl⟩
  | reset => cases h; exact .inr (.inr (.inl ⟨rfl, rfl⟩))
  | setPc v => cases h; exact .inr (.inr (.inr (.inl ⟨v, rfl, rfl⟩)))
  | setRegister index v => cases h; exact .inr (.inr (.inr (.inr (.inl ⟨index, v, rfl, rfl⟩))))
  | read sp a w => cases h; exact .inr (.inr (.inr (.inr (.inr (.inl ⟨sp, a, w, rfl, rfl⟩)))))
  | write sp a w v =>
    simp only [transact, hostWrite] at h
    split at h
    · next hv => cases h; exact .inr (.inr (.inr (.inr (.inr (.inr (.inl ⟨sp, a, w, v, rfl, hv, rfl⟩))))))
    · cases h
  | loadProgram ws => cases h; exact .inr (.inr (.inr (.inr (.inr (.inr (.inr (.inl ⟨ws, rfl, rfl⟩)))))))
  | loadFile bs => cases h; exact .inr (.inr (.inr (.inr (.inr (.inr (.inr (.inr ⟨bs, rfl, rfl⟩)))))))

/-- All that the register port's write can do (R20). -/
theorem setRegister_cases (index : Int) (v : Word) (s : State) :
    (validRegIndex index = true ∧ setRegister index v s = (.ok, s.writeReg (regOfIndex index) v)) ∨
    (validRegIndex index = false ∧ setRegister index v s = (.invalidRegister, s)) := by
  unfold setRegister
  cases validRegIndex index <;> simp

/-- All that the file loader can do (R56). -/
theorem loadFile_cases (bs : List Byte) (s : State) :
    (s.imem.size < bs.length ∧ loadFile bs s = (.rejected, s)) ∨
    (bs.length ≤ s.imem.size ∧ (loadFile bs s).1 = .ok ∧
      ((Config.fileLoadSetsPc0 = true ∧ (loadFile bs s).2 = (s.setMem .imem (s.imem.writeBytes 0 bs)).setPc 0#32) ∨
        (Config.fileLoadSetsPc0 = false ∧ (loadFile bs s).2 = s.setMem .imem (s.imem.writeBytes 0 bs)))) := by
  unfold loadFile
  by_cases h : s.imem.size < bs.length
  · exact .inl ⟨h, by rw [if_pos h]⟩
  · refine .inr ⟨by omega, by rw [if_neg h], ?_⟩
    rw [if_neg h]
    cases Config.fileLoadSetsPc0 <;> simp

end Sys2Proof.Machine
end

