-- ==== Sys2Proof/Tests/Slice0.lean ====
section
/-! SUPPORT. The model's own tests. Expected values come from spec/95_test_vectors.md (V1 to V81), from the worked examples of
spec/40_alu_rtype.md, or from the encodings of spec/30_encoding.md written out bit by bit; none is the model's own answer. At the end, for
each statement with hypotheses, a witness that meets them. -/

namespace Sys2Proof.Machine.Tests

/-! ## WellFormed refuses an ill-formed Decoded Instruction, check by check -/

/-- V28's Decoded Instruction. -/
def goodDecoded : DecodedInstr := .ofRType 0x00 3 2 0 1

theorem test_wellFormed_accepts : goodDecoded.wellFormed = true := by decide
theorem test_wellFormed_format_rType : DecodedInstr.wellFormed { goodDecoded with opcode := 0x13 } = false := by decide
theorem test_wellFormed_format_unknown : DecodedInstr.wellFormed { DecodedInstr.ofUnknown 0x33 with rd := 0 } = false := by decide
theorem test_wellFormed_imm : DecodedInstr.wellFormed { goodDecoded with imm := 1 } = false := by decide
theorem test_wellFormed_unknown_rd : DecodedInstr.wellFormed { DecodedInstr.ofUnknown 0x13 with rd := 1 } = false := by decide
theorem test_wellFormed_unknown_rs1 : DecodedInstr.wellFormed { DecodedInstr.ofUnknown 0x13 with rs1 := 1 } = false := by decide
theorem test_wellFormed_unknown_rs2 : DecodedInstr.wellFormed { DecodedInstr.ofUnknown 0x13 with rs2 := 1 } = false := by decide
theorem test_wellFormed_unknown_funct3 : DecodedInstr.wellFormed { DecodedInstr.ofUnknown 0x13 with funct3 := 1 } = false := by
  decide
theorem test_wellFormed_unknown_funct7 : DecodedInstr.wellFormed { DecodedInstr.ofUnknown 0x13 with funct7 := 1 } = false := by
  decide

/-! ## Decoding, on words written out from R66 and R73: funct7, rs2, rs1, funct3, rd, opcode -/

theorem test_decode_add : decode (0b0000000#7 ++ 0b00111#5 ++ 0b00110#5 ++ 0b000#3 ++ 0b00101#5 ++ 0b0110011#7) = .ok (.add 5 6 7) := by
  decide
theorem test_decode_sub : decode (0b0100000#7 ++ 0b00111#5 ++ 0b00110#5 ++ 0b000#3 ++ 0b00101#5 ++ 0b0110011#7) = .ok (.sub 5 6 7) := by
  decide
theorem test_decode_sll :
    decode (0b0000001#7 ++ 0b00111#5 ++ 0b00110#5 ++ 0b001#3 ++ 0b00101#5 ++ 0b0110011#7) = .ok (.sll 5 6 7 1) := by decide
theorem test_decode_slt :
    decode (0b1111111#7 ++ 0b00111#5 ++ 0b00110#5 ++ 0b010#3 ++ 0b00101#5 ++ 0b0110011#7) = .ok (.slt 5 6 7 127) := by decide
theorem test_decode_sltu :
    decode (0b0000000#7 ++ 0b00111#5 ++ 0b00110#5 ++ 0b011#3 ++ 0b00101#5 ++ 0b0110011#7) = .ok (.sltu 5 6 7 0) := by decide
theorem test_decode_xor :
    decode (0b0100000#7 ++ 0b00111#5 ++ 0b00110#5 ++ 0b100#3 ++ 0b00101#5 ++ 0b0110011#7) = .ok (.xor 5 6 7 32) := by decide
theorem test_decode_srl : decode (0b0000000#7 ++ 0b00111#5 ++ 0b00110#5 ++ 0b101#3 ++ 0b00101#5 ++ 0b0110011#7) = .ok (.srl 5 6 7) := by
  decide
theorem test_decode_sra : decode (0b0100000#7 ++ 0b00111#5 ++ 0b00110#5 ++ 0b101#3 ++ 0b00101#5 ++ 0b0110011#7) = .ok (.sra 5 6 7) := by
  decide
theorem test_decode_or :
    decode (0b0000000#7 ++ 0b11111#5 ++ 0b00000#5 ++ 0b110#3 ++ 0b11111#5 ++ 0b0110011#7) = .ok (.or 31 0 31 0) := by decide
theorem test_decode_and :
    decode (0b0000000#7 ++ 0b00111#5 ++ 0b00110#5 ++ 0b111#3 ++ 0b00101#5 ++ 0b0110011#7) = .ok (.and 5 6 7 0) := by decide
theorem test_decode_halt : decode 0x00000000#32 = .ok .halt := by decide

/-- R74: opcode 0x00 but not the halt word. -/
theorem test_decode_almost_halt : decode 0x00000080#32 = .error (.unknownOpcode 0) := by decide
/-- V71. -/
theorem test_decode_unknownFunction : decode 0x027352B3#32 = .error (.unknownFunction 5 1) := by decide
/-- V30. -/
theorem test_decodeFields_v30 :
    decodeFields 0xFE7322B3#32 = { opcode := 0x33, format := .rType, rd := 5, rs1 := 6, rs2 := 7, funct3 := 2, funct7 := 0x7F, imm := 0 } := by
  decide
/-- V32. -/
theorem test_decodeFields_v32 : decodeFields 0xFFFFFFFF#32 = .ofUnknown 0x7F := by decide
/-- V35, and the table of section 2.4. -/
theorem test_encode_words :
    encode (.add 1 2 3) = 0x003100B3#32 ∧ encode (.sub 5 6 7) = 0x407302B3#32 ∧ encode (.sll 5 6 7 0) = 0x007312B3#32 ∧
    encode (.sra 5 6 7) = 0x407352B3#32 ∧ encode (assemble .and 5 6 7) = 0x007372B3#32 := by decide
/-- P1's bytes of `add x1, x2, x3`, in memory order. -/
theorem test_encodeBytes : encodeBytes (.add 1 2 3) = [0xB3, 0x00, 0x31, 0x00] := by decide
theorem test_decodeBytes_short : decodeBytes [0xB3, 0x00, 0x31] = .error .tooShort := by decide
theorem test_decodeTableWord : decodeTableWord 32 0x40218433 = some (.sub 8 3 2) := by decide
theorem test_decodeTableWord_refuses : decodeTableWord 32 0x00108093 = none := by decide

/-! ## One step on a small state -/

/-- A machine after reset with 16 bytes in each memory (the sizes of sections 2.2 and 2.5). -/
def smallMachine : State := { State.reset with imem := ⟨16, []⟩, dmem := ⟨16, []⟩ }

/-- The small machine with a program loaded (R55) and registers seeded (R20). -/
def loaded (ws : List Word) (seeds : List (RegIdx × Word)) : State :=
  seeds.foldl (fun s p => s.writeReg p.1 p.2) (loadProgram ws smallMachine)

/-- The outcome is a next state that passes a check. -/
def nextHas (o : Host.Outcome State Fault Refusal) (check : State → Bool) : Bool :=
  match o with
  | .next t => check t
  | .fault _ => false
  | .refused _ => false

/-- x5 = x6 op x7, one step at pc 0 with the given operands: the result, pc 4, count 1, still running. -/
def resultIs (w : Word) (a b r : Word) : Bool :=
  nextHas (step (loaded [w] [(6, a), (7, b)])) fun t =>
    decide (t.readReg 5 = r) && decide (t.pc = 4) && decide (t.instructionCount = 1) && decide (t.halted = false)

/-- V38. -/
theorem test_add_wraps : resultIs 0x007302B3#32 0x80000000#32 0x80000000#32 0x00000000#32 = true := by decide
/-- V36. -/
theorem test_add_no_overflow : resultIs 0x007302B3#32 0x7FFFFFFF#32 0x00000001#32 0x80000000#32 = true := by decide
/-- V39. -/
theorem test_sub_borrows : resultIs 0x407302B3#32 0x00000000#32 0x00000001#32 0xFFFFFFFF#32 = true := by decide
/-- V40. -/
theorem test_sub_order : resultIs 0x407302B3#32 0x80000000#32 0x00000001#32 0x7FFFFFFF#32 = true := by decide
/-- V44. -/
theorem test_sll_masks : resultIs 0x007312B3#32 0x00000003#32 0xFFFFFFE1#32 0x00000006#32 = true := by decide
/-- V68: funct7 0x01. -/
theorem test_sll_any_funct7 : resultIs 0x027312B3#32 0x00000001#32 0x00000002#32 0x00000004#32 = true := by decide
/-- V46. -/
theorem test_slt_signed : resultIs 0x007322B3#32 0x80000000#32 0x7FFFFFFF#32 0x00000001#32 = true := by decide
/-- V48. -/
theorem test_slt_equal : resultIs 0x007322B3#32 0x00000005#32 0x00000005#32 0x00000000#32 = true := by decide
/-- V53. -/
theorem test_sltu_unsigned : resultIs 0x007332B3#32 0x7FFFFFFF#32 0x80000000#32 0x00000001#32 = true := by decide
/-- V50. -/
theorem test_sltu_order : resultIs 0x007332B3#32 0xFFFFFFFF#32 0x00000001#32 0x00000000#32 = true := by decide
/-- V55. -/
theorem test_xor : resultIs 0x007342B3#32 0x12345678#32 0xFFFFFFFF#32 0xEDCBA987#32 = true := by decide
/-- V58. -/
theorem test_srl_masks : resultIs 0x007352B3#32 0xFFFFFFFF#32 0xFFFFFFFC#32 0x0000000F#32 = true := by decide
/-- V57. -/
theorem test_srl_by_32 : resultIs 0x007352B3#32 0x80000000#32 0x00000020#32 0x80000000#32 = true := by decide
/-- V62. -/
theorem test_sra_sign : resultIs 0x407352B3#32 0xF0000000#32 0xFFFFFFFC#32 0xFFFFFFFF#32 = true := by decide
/-- V60. -/
theorem test_sra_positive : resultIs 0x407352B3#32 0x7FFFFFFF#32 0x0000001F#32 0x00000000#32 = true := by decide
/-- V65. -/
theorem test_or : resultIs 0x007362B3#32 0x80000001#32 0x7FFFFFFE#32 0xFFFFFFFF#32 = true := by decide
/-- The example of R97, with x7 and x6 for its registers. -/
theorem test_and : resultIs 0x007372B3#32 0x0000F0F0#32 0x0000FF00#32 0x0000F000#32 = true := by decide

/-- V7: a write to x0. -/
theorem test_write_x0 :
    nextHas (step (loaded [0x00628033#32] [(5, 0x80000000#32), (6, 4#32)])) (fun t =>
      decide (t.readReg 0 = 0) && decide (t.pc = 4) && decide (t.instructionCount = 1)) = true := by decide
/-- V8: the destination is both sources; the word of ADD x5, x5, x5 by R82. -/
theorem test_rd_is_both_sources :
    nextHas (step (loaded [0x005282B3#32] [(5, 3#32)])) (fun t => decide (t.readReg 5 = 6)) = true := by decide

/-- A step that halts: its cause's code, the pc and the count after it. -/
def haltsWith (s : State) (code : Nat) (pc : Word) (count : Count) : Bool :=
  nextHas (step s) fun t => t.halted && decide (t.haltCause.code = code) && decide (t.pc = pc) && decide (t.instructionCount = count)

/-- V70. -/
theorem test_unknownFunction : haltsWith (loaded [0x027302B3#32] [(6, 1#32), (7, 2#32)]) 5 0 1 = true := by decide
/-- V72. -/
theorem test_unknownOpcode : haltsWith (loaded [0x00108093#32] []) 4 0 1 = true := by decide
/-- V73. -/
theorem test_haltWord : haltsWith (loaded [0x00000000#32] []) 1 0 0 = true := by decide
/-- V74. -/
theorem test_fetch_misaligned : haltsWith (hostSetPc 2 (loaded [0x003100B3#32] [])) 3 2 0 = true := by decide
/-- V75: both tests fail, bounds first. -/
theorem test_fetch_outOfBounds : haltsWith (hostSetPc 14 (loaded [0x003100B3#32] [])) 2 14 0 = true := by decide
/-- Four ADD words, the start of V76 and V77. -/
def fourAdds : State := loaded [0x003100B3#32, 0x003100B3#32, 0x003100B3#32, 0x003100B3#32] []
/-- V76. -/
theorem test_step_makes_no_range_check :
    nextHas (step (hostSetPc 12 fourAdds)) (fun t => decide (t.pc = 16) && decide (t.halted = false)) = true := by decide
/-- V77. -/
theorem test_run_checks_the_range :
    (runWithin 1 (hostSetPc 12 fourAdds)).map (fun t => (t.pc, t.haltCause.code, t.instructionCount)) = some (16, 6, 1) := by decide
/-- V78. -/
theorem test_run_keeps_the_first_cause :
    (runWithin 1 (hostSetPc 16 fourAdds)).map (fun t => (t.pc, t.haltCause.code, t.instructionCount)) = some (16, 2, 0) := by decide

/-- The host's question: the first step after reset runs the placed word (here R88's example word with zeroed registers). -/
theorem test_withFetchWord :
    nextHas (step (State.reset.withFetchWord 32 0x003100B3)) (fun t => decide (t.pc = 4) && decide (t.instructionCount = 1)) = true := by
  decide

/-! ## Memory and the host's operations -/

/-- The data memory after V10. -/
def afterV10 : State := writeWord .dmem 4 0xA1B2C3D4#32 smallMachine
/-- V10, V11. -/
theorem test_bytes_little_endian : afterV10.dmem.readBytes 4 4 = [0xD4, 0xC3, 0xB2, 0xA1] := by decide
/-- V12. -/
theorem test_halfwords : (readHalfword .dmem 4 afterV10).1 = 0xC3D4 ∧ (readHalfword .dmem 6 afterV10).1 = 0xA1B2 := by decide
/-- V13. -/
theorem test_byte_in_word : (readWord .dmem 4 (writeByte .dmem 5 0xFF#8 afterV10)).1 = 0xA1B2FFD4 := by decide
/-- V15. -/
theorem test_word_outOfBounds : (readWord .dmem 13 smallMachine).1 = 0 ∧ (readWord .dmem 13 smallMachine).2.haltCause.code = 2 := by decide
/-- V17. -/
theorem test_half_misaligned : (readHalfword .dmem 1 smallMachine).2.haltCause.code = 3 := by decide
/-- V21, V22: the write is dropped and the first cause is kept. -/
theorem test_first_cause_kept :
    (writeByte .dmem 16 1#8 (writeHalfword .dmem 3 0x1234#16 smallMachine)).haltCause = .fault (.misaligned .dmem 3 .half) := by decide
/-- V23. -/
theorem test_bounds_before_alignment : (readWord .dmem 0xFFFFFFFD#32 smallMachine).2.haltCause.code = 2 := by decide
/-- V26: the fourth word is skipped. -/
theorem test_load_skips :
    (loadProgram [1, 2, 3, 4] { smallMachine with imem := ⟨14, []⟩ }).imem.cells = [(0, 1), (4, 2), (8, 3)] := by decide
/-- V27. -/
theorem test_loadFile_rejects : loadFile (List.replicate 17 1) smallMachine = (.rejected, smallMachine) := by decide
/-- V2. -/
theorem test_setRegister_zero :
    (setRegister 0 5#32 smallMachine).1 = .ok ∧ getRegister 0 (setRegister 0 5#32 smallMachine).2 = (0, .ok) := by decide
/-- V5, V6. -/
theorem test_setRegister_invalid :
    setRegister (-1) 7#32 smallMachine = (.invalidRegister, smallMachine) ∧
    setRegister 32 7#32 smallMachine = (.invalidRegister, smallMachine) := by decide
/-- V3. -/
theorem test_getRegister_31 : getRegister 31 (setRegister 31 0xFFFFFFFF#32 smallMachine).2 = (0xFFFFFFFF, .ok) := by decide
/-- V25, V81: reset keeps the memory and clears the rest. -/
theorem test_reset_keeps_memory :
    (writeHalfword .dmem 3 0x1234#16 afterV10).hostReset.dmem = afterV10.dmem ∧
    (writeHalfword .dmem 3 0x1234#16 afterV10).hostReset.halted = false := by decide
/-- R126: a construction with contents. -/
theorem test_construction :
    nextHas (initMachine true 4 2 (fun a => BitVec.ofNat 8 (a + 1)) (fun _ => 0)) (fun t =>
      decide (t.imem.readBytes 0 4 = [1, 2, 3, 4]) && decide (t.dmem.size = 2)) = true := by decide
/-- R81: `mv x5, x6`, `neg x5, x6`, `snez x5, x6`, `sltz x5, x6`, `sgtz x5, x6` with x6 = 0xFFFFFFFF. -/
theorem test_pseudo :
    [pseudoMv 5 6, pseudoNeg 5 6, pseudoSnez 5 6, pseudoSltz 5 6, pseudoSgtz 5 6].map
      (fun i => nextHas (exec i (loaded [] [(6, 0xFFFFFFFF#32)])) (fun t => decide (t.readReg 5 =
        match i with
        | .add _ _ _ => 0xFFFFFFFF#32
        | .sub _ _ _ => 1#32
        | .sltu _ _ _ _ => 1#32
        | .slt _ rs1 _ _ => if rs1 = 6 then 1#32 else 0#32
        | .sll _ _ _ _ => 0#32 | .xor _ _ _ _ => 0#32 | .srl _ _ _ => 0#32 | .sra _ _ _ => 0#32 | .or _ _ _ _ => 0#32
        | .and _ _ _ _ => 0#32 | .halt => 0#32))) = [true, true, true, true, true] := by decide

/-! ## Witnesses

For each statement of Obligations.lean that has hypotheses, concrete values that meet all of them together, clause by clause, at the
ends of each clause's range. -/

/-! ### Encoding -/

/-- The top bit of each width of field. -/
theorem witness_FieldsAreShiftedAndMasked : 6 < 7 ∧ 2 < 3 ∧ 4 < 5 := by decide
theorem witness_DecoderGivesTheTwoFormats :
    opcodeField 0x003100B3#32 = 0x33 ∧ opcodeField 0xFFFFFFB3#32 = 0x33 ∧ opcodeField 0x003100B2#32 ≠ 0x33 ∧
    opcodeField 0x003100B4#32 ≠ 0x33 ∧ opcodeField 0x00000000#32 ≠ 0x33 := by decide
theorem witness_DecodedFieldsRebuildTheWord :
    (decodeFields 0x00000033#32).opcode = 0x33 ∧ (decodeFields 0xFFFFFFB3#32).opcode = 0x33 := by decide
theorem witness_DecodeOfEncodeIsTheInstruction :
    [Instr.add 0 31 1, .sub 31 0 1, .sll 1 2 3 127, .slt 1 2 3 0, .sltu 1 2 3 1, .xor 1 2 3 64, .srl 1 2 3, .sra 1 2 3, .or 1 2 3 32,
      .and 31 31 31 127, .halt].map Instr.wellFormed = List.replicate 11 true := by decide
theorem witness_EncodeOfDecodeIsTheWord : decode 0xFE7322B3#32 = .ok (.slt 5 6 7 0x7F) ∧ decode 0#32 = .ok .halt := by decide
theorem witness_OpcodeTableSelectsTheInstruction :
    decode 0x407302B3#32 = .ok (.sub 5 6 7) ∧ OpcodeRow.selects ⟨"SUB", 0x40000033, 0xFE00707F⟩ 0x407302B3#32 = true ∧
    decode 0x00000001#32 = .error (.unknownOpcode 1) ∧ decode 0x027352B3#32 = .error (.unknownFunction 5 1) := by decide
theorem witness_BytesDecodeToTheInstruction :
    Instr.wellFormed (.or 31 0 31 127) = true ∧ ([] : List Byte).length < 4 ∧ ([0xB3, 0x00, 0x31] : List Byte).length < 4 := by decide

/-! ### Registers -/

theorem witness_RegisterReadAndWrite :
    (0 : RegIdx) = 0 ∧ (1 : RegIdx) ≠ 0 ∧ (31 : RegIdx) ≠ 0 ∧ (0 : RegIdx) ≠ 31 ∧ (31 : RegIdx) ≠ 0 := by decide

/-- The small machine with another value in the storage cell of x0. -/
def otherZeroCell : State := { smallMachine with regs := smallMachine.regs.set 0 5#32 }
theorem witness_ZeroCellIsUnobservable : SameVisible smallMachine otherZeroCell ∧ smallMachine ≠ otherZeroCell := by
  refine ⟨⟨by decide, rfl, rfl, rfl, rfl, rfl, rfl⟩, by decide⟩

theorem witness_HostRegisterPort :
    ((0 : Int) ≤ 0 ∧ (0 : Int) ≤ 31) ∧ ((0 : Int) ≤ 31 ∧ (31 : Int) ≤ 31) ∧ ¬((0 : Int) ≤ -1 ∧ (-1 : Int) ≤ 31) ∧
    ¬((0 : Int) ≤ 32 ∧ (32 : Int) ≤ 31) ∧ ((1 : Int) ≤ 1 ∧ (1 : Int) ≤ 31) ∧ ((1 : Int) ≤ 31 ∧ (31 : Int) ≤ 31) := by decide
theorem witness_SetPcIsUnchecked :
    smallMachine.halted = false ∧ smallMachine.haltCause = .none ∧
    smallMachine.imem.size ≤ (13#32).toNat + 3 ∧ smallMachine.imem.size ≤ (0xFFFFFFFF#32).toNat + 3 ∧
    ((11#32).toNat + 3 < smallMachine.imem.size ∧ (11#32).toNat % 4 ≠ 0) ∧
    ((1#32).toNat + 3 < smallMachine.imem.size ∧ (1#32).toNat % 4 ≠ 0) := by decide

/-! ### Memory -/

/-- Where a checked access of a width fails its bounds test on the small machine, and where its alignment test. -/
def failsBounds (a : Addr) (w : Width) : Bool := decide (smallMachine.dmem.size ≤ a.toNat + w.bytes - 1)
def failsAlignment (a : Addr) (w : Width) : Bool := decide (1 < w.bytes) && decide (a.toNat % w.bytes ≠ 0)

theorem witness_MemoriesAreFixedAndDisjoint :
    (∃ t, initMachine true 4 2 (fun _ => 0) (fun _ => 1) = .next t) ∧
    (∃ t, transact (.write .dmem 12 .word 7) smallMachine = .next t) ∧ (∃ t, transact .step smallMachine = .next t) ∧
    Space.imem ≠ .dmem := by
  exact ⟨⟨_, rfl⟩, ⟨_, rfl⟩, ⟨_, rfl⟩, by decide⟩
/-- Each clause for each width: only the bounds fail, only the alignment, both, neither. A byte access has no alignment test. -/
theorem witness_checked_access :
    (failsBounds 16 .word && !failsAlignment 16 .word) = true ∧ (failsBounds 16 .half && !failsAlignment 16 .half) = true ∧
    (failsBounds 16 .byte && !failsAlignment 16 .byte) = true ∧
    (!failsBounds 11 .word && failsAlignment 11 .word) = true ∧ (!failsBounds 13 .half && failsAlignment 13 .half) = true ∧
    (failsBounds 13 .word && failsAlignment 13 .word) = true ∧ (failsBounds 15 .half && failsAlignment 15 .half) = true ∧
    (failsBounds 0xFFFFFFFD#32 .word && failsAlignment 0xFFFFFFFD#32 .word) = true ∧
    (!failsBounds 12 .word && !failsAlignment 12 .word) = true ∧ (!failsBounds 14 .half && !failsAlignment 14 .half) = true ∧
    (!failsBounds 15 .byte && !failsAlignment 15 .byte) = true := by decide
/-- Both cases of the cause: none recorded, and one recorded already. -/
theorem witness_FailingAccessHaltsAndDoesNothing :
    (failsBounds 16 .word || failsAlignment 16 .word) = true ∧ (16#32).toNat % Width.word.bytes = 0 ∧
    smallMachine.haltCause = .none ∧ (smallMachine.raise (.unknownOpcode 0)).haltCause ≠ .none ∧
    ((failsBounds 2 .word || failsAlignment 2 .word) = true ∧ (2#32).toNat + Width.word.bytes - 1 < smallMachine.dmem.size) ∧
    ¬(smallMachine.dmem.size ≤ (12#32).toNat + Width.word.bytes - 1 ∨ (1 < Width.word.bytes ∧ (12#32).toNat % Width.word.bytes ≠ 0)) := by
  decide
theorem witness_CheckedReadPrimitive :
    smallMachine.dmem.size ≤ (0xFFFFFFFD#32).toNat + Width.word.bytes - 1 ∧
    ((11#32).toNat + Width.word.bytes - 1 < smallMachine.dmem.size ∧ 1 < Width.word.bytes ∧ (11#32).toNat % Width.word.bytes ≠ 0) ∧
    ((12#32).toNat + Width.word.bytes - 1 < smallMachine.dmem.size ∧ (Width.word.bytes = 1 ∨ (12#32).toNat % Width.word.bytes = 0)) ∧
    ((15#32).toNat + Width.byte.bytes - 1 < smallMachine.dmem.size ∧ (Width.byte.bytes = 1 ∨ (15#32).toNat % Width.byte.bytes = 0)) := by
  decide
theorem witness_CheckedWritePrimitive :
    (smallMachine.mem .dmem).wf = true ∧ smallMachine.dmem.size ≤ (13#32).toNat + Width.word.bytes - 1 ∧
    ((13#32).toNat + Width.half.bytes - 1 < smallMachine.dmem.size ∧ 1 < Width.half.bytes ∧ (13#32).toNat % Width.half.bytes ≠ 0) ∧
    ((14#32).toNat + Width.half.bytes - 1 < smallMachine.dmem.size ∧ (Width.half.bytes = 1 ∨ (14#32).toNat % Width.half.bytes = 0)) ∧
    Space.imem ≠ .dmem := by decide
theorem witness_ReadAfterWriteGivesTheValue :
    (smallMachine.mem .dmem).wf = true ∧
    ((12#32).toNat % 4 = 0 ∧ (12#32).toNat + 3 < (smallMachine.mem .dmem).size) ∧
    ((14#32).toNat % 2 = 0 ∧ (14#32).toNat + 1 < (smallMachine.mem .dmem).size) ∧
    (15#32).toNat < (smallMachine.mem .dmem).size ∧
    ((12#32).toNat % Width.word.bytes = 0 ∧ (12#32).toNat + Width.word.bytes ≤ (smallMachine.mem .dmem).size) ∧
    (11 < (12#32).toNat ∧ (12#32).toNat + Width.word.bytes ≤ 16) := by decide
theorem witness_MixedWidthView :
    (smallMachine.mem .imem).wf = true ∧ (12#32).toNat % 4 = 0 ∧ (12#32).toNat + 3 < (smallMachine.mem .imem).size := by decide

theorem inv_smallMachine : smallMachine.Inv := ⟨by decide, by decide, by decide⟩
theorem inv_smallMachine_halted : (smallMachine.halt .haltWord).Inv := ⟨by decide, by decide, by decide⟩
theorem witness_FaultingAccessWhileHalted :
    (smallMachine.halt .haltWord).Inv ∧ (smallMachine.halt .haltWord).halted = true ∧
    (smallMachine.halt .haltWord).accessFault .dmem 16 .byte = some (.outOfBounds .dmem 16 .byte) :=
  ⟨inv_smallMachine_halted, by decide, by decide⟩
/-- The last whole word at 12, a fifth word that is skipped, and an address no word covers. -/
theorem witness_BulkLoadWritesTheWords :
    smallMachine.imem.wf = true ∧ ([1, 2, 3, 4, 5] : List Word)[3]? = some 4 ∧ 4 * 3 + 3 < smallMachine.imem.size ∧
    ¬(4 * 4 + 3 < smallMachine.imem.size) ∧
    ∀ i, i < ([1, 2] : List Word).length → 4 * i + 3 < smallMachine.imem.size → 8 < 4 * i ∨ 4 * i + 4 ≤ 8 := by
  refine ⟨by decide, by decide, by decide, by decide, fun i h _ => Or.inr ?_⟩
  simp at h
  omega
theorem witness_FileLoadWritesTheBytes :
    smallMachine.imem.wf = true ∧ smallMachine.imem.size < (List.replicate 17 (1 : Byte)).length ∧
    (List.replicate 16 (1 : Byte)).length ≤ smallMachine.imem.size ∧ (List.replicate 16 (1 : Byte))[15]? = some 1 := by decide
theorem witness_RefusedHostOperations :
    15 < (smallMachine.mem .dmem).size ∧ (smallMachine.mem .dmem).size ≤ 16 ∧ 255 < 2 ^ (8 * Width.byte.bytes) ∧
    2 ^ (8 * Width.byte.bytes) ≤ 256 := by decide
theorem witness_FetchSeesHostWritesOnly :
    (∃ t, step smallMachine = .next t) ∧ smallMachine.fetchable = true ∧ (smallMachine.setPc 12).fetchable = true ∧
    smallMachine.imem.wf = true ∧ 3 < smallMachine.imem.size := ⟨⟨_, rfl⟩, by decide, by decide, by decide, by decide⟩

/-! ### Engine and sequencer -/

/-- The premise of CommitsOnly's clause on the pc, at both ends, and a register that is not the destination. -/
theorem witness_CommitsOnly :
    smallMachine.pc.toNat + 4 < 2 ^ 32 ∧ (smallMachine.setPc 0xFFFFFFFB#32).pc.toNat + 4 < 2 ^ 32 ∧ (31 : RegIdx) ≠ 0 := by decide

theorem witness_EngineDispatchesByTheTable :
    (DecodedInstr.ofUnknown 0x32).opcode ≠ 0x33 ∧ (DecodedInstr.ofUnknown 0x34).opcode ≠ 0x33 ∧
    [(0x0, 0x00), (0x0, 0x20), (0x1, 0x7F), (0x2, 0x7F), (0x3, 0x01), (0x4, 0x20), (0x5, 0x00), (0x5, 0x20), (0x6, 0x00), (0x7, 0x7F)].map
      (fun p : Funct3 × Funct7 => ((DecodedInstr.ofRType p.2 3 2 p.1 1).opcode == 0x33) &&
        ((DecodedInstr.ofRType p.2 3 2 p.1 1).funct3 == p.1) && ((DecodedInstr.ofRType p.2 3 2 p.1 1).funct7 == p.2)) =
      List.replicate 10 true ∧
    [(0x0, 0x01), (0x0, 0x1F), (0x5, 0x21), (0x5, 0x7F)].map
      (fun p : Funct3 × Funct7 => ((DecodedInstr.ofRType p.2 3 2 p.1 1).opcode == 0x33) &&
        ((DecodedInstr.ofRType p.2 3 2 p.1 1).funct7 != 0x00) && ((DecodedInstr.ofRType p.2 3 2 p.1 1).funct7 != 0x20)) =
      List.replicate 4 true ∧
    (fourAdds.halted = false ∧ fourAdds.fetchable = true ∧ fourAdds.nextWord ≠ 0) := by decide
/-- `add x0, x5, x6` at pc 0 (the word of V7). -/
theorem witness_WriteToX0OnlyAdvancesThePc :
    Instr.add 0 5 6 ≠ .halt ∧ (Instr.add 0 5 6).decoded.rd = 0 ∧ (loaded [0x00628033#32] []).halted = false ∧
    (loaded [0x00628033#32] []).fetchable = true ∧ decode (loaded [0x00628033#32] []).nextWord = .ok (.add 0 5 6) := by decide
theorem witness_HaltWordHalts :
    smallMachine.halted = false ∧ smallMachine.fetchable = true ∧ smallMachine.nextWord = 0x00000000#32 ∧
    ((smallMachine.setPc 13).halted = false ∧ (smallMachine.setPc 13).fetchable = false) ∧
    ((smallMachine.setPc 11).halted = false ∧ (smallMachine.setPc 11).fetchable = false) := by decide
theorem witness_StepRunsTheDecodedInstruction :
    fourAdds.halted = false ∧ fourAdds.fetchable = true ∧ decode fourAdds.nextWord = .ok (.add 1 2 3) ∧
    (Instr.add 1 2 3).wellFormed = true ∧ decode smallMachine.nextWord = .ok .halt := by decide
theorem witness_HaltedMachineIsIdle : (smallMachine.halt .haltWord).halted = true := by decide
/-- A word that is an instruction, one with an unknown opcode, one with unknown function codes, the halt word; and a pc for each of the
two faults of a fetch. -/
theorem witness_StepStagesInOrder :
    (smallMachine.halt .haltWord).halted = true ∧ smallMachine.halted = false ∧
    smallMachine.imem.size ≤ (smallMachine.setPc 13).pc.toNat + 3 ∧
    ((smallMachine.setPc 11).pc.toNat + 3 < smallMachine.imem.size ∧ (smallMachine.setPc 11).pc.toNat % 4 ≠ 0) ∧
    (smallMachine.fetchable = true ∧ smallMachine.nextWord = 0) ∧
    ((loaded [0x00108093#32] []).fetchable = true ∧ (loaded [0x00108093#32] []).nextWord ≠ 0 ∧
      opcodeField (loaded [0x00108093#32] []).nextWord ≠ 0x33) ∧
    ((loaded [0x027302B3#32] []).fetchable = true ∧ opcodeField (loaded [0x027302B3#32] []).nextWord = 0x33 ∧
      funct3Field (loaded [0x027302B3#32] []).nextWord = 0x0 ∧ funct7Field (loaded [0x027302B3#32] []).nextWord ≠ 0x00 ∧
      funct7Field (loaded [0x027302B3#32] []).nextWord ≠ 0x20) ∧
    (fourAdds.fetchable = true ∧ opcodeField fourAdds.nextWord = 0x33 ∧ funct7Field fourAdds.nextWord = 0x00) := by decide
/-- The last clause: a step that halts, from a state with the invariant. -/
theorem witness_StepStagesInOrder_halting :
    smallMachine.Inv ∧ ∃ t, step smallMachine = .next t ∧ t.halted = true := ⟨inv_smallMachine, _, rfl, by decide⟩
/-- A step that is counted, and one that is not. -/
theorem witness_CounterCountsExecutedSteps :
    (∃ t, step fourAdds = .next t) ∧ (fourAdds.halted = false ∧ fourAdds.fetchable = true ∧ fourAdds.nextWord ≠ 0) ∧
    (∃ t, step smallMachine = .next t) ∧ smallMachine.nextWord = 0 := ⟨⟨_, rfl⟩, by decide, ⟨_, rfl⟩, by decide⟩
/-- A step that goes on, and one that halts. -/
theorem witness_PcAdvancesOrTheMachineHalts :
    (fourAdds.halted = false ∧ ∃ t, step fourAdds = .next t ∧ t.halted = false) ∧
    (smallMachine.halted = false ∧ ∃ t, step smallMachine = .next t ∧ t.halted = true) :=
  ⟨⟨by decide, _, rfl, by decide⟩, by decide, _, rfl, by decide⟩
theorem witness_StepKeepsThePcAligned : fourAdds.pc.toNat % 4 = 0 ∧ ∃ t, step fourAdds = .next t ∧ t.pc = 4 :=
  ⟨by decide, _, rfl, by decide⟩
/-- Both sides of the range: the pc after the step is 16 of 16, and 12. -/
theorem witness_RunChecksThePcAfterAStep :
    (∃ t, step (fourAdds.setPc 12) = .next t ∧ t.imem.size ≤ t.pc.toNat) ∧
    (∃ t, step (fourAdds.setPc 8) = .next t ∧ t.pc.toNat < t.imem.size) := ⟨⟨_, rfl, by decide⟩, _, rfl, by decide⟩
theorem witness_RunEndsBelowTheFullSpace :
    fourAdds.imem.size < 2 ^ 32 ∧ (State.imem { smallMachine with imem := ⟨4294967295, []⟩ }).size < 2 ^ 32 := by decide

/-- A machine with the full address space, every word of its instruction memory 0x00000033 (I13). -/
def fullOfAdds : State :=
  { State.reset with imem := Memory.ofContents 4294967296 fun a => if a % 4 = 0 then 0x33#8 else 0x00#8 }
theorem witness_RunNeedNotEndInTheFullSpace :
    fullOfAdds.imem.size = 2 ^ 32 ∧ fullOfAdds.halted = false ∧ fullOfAdds.pc.toNat % 4 = 0 ∧
    ∀ a, a < 2 ^ 32 → fullOfAdds.imem.get a = if a % 4 = 0 then 0x33#8 else 0x00#8 :=
  ⟨rfl, rfl, rfl, fun _ h => Memory.get_ofContents 4294967296 _ h⟩
theorem inv_fourAdds_setPc (v : Word) : (fourAdds.setPc v).Inv :=
  ⟨(by decide : fourAdds.imem.wf = true), (by decide : fourAdds.dmem.wf = true),
    (by decide : fourAdds.halted = true ↔ fourAdds.haltCause ≠ .none)⟩
/-- Both clauses: the pc after the step is below IMEM_SIZE, and at it. -/
theorem witness_StepAloneAndRunDifferOnlyAtTheEnd :
    ((fourAdds.setPc 8).Inv ∧ (fourAdds.setPc 8).halted = false ∧
      ∃ t, step (fourAdds.setPc 8) = .next t ∧ t.pc.toNat < t.imem.size) ∧
    ((fourAdds.setPc 12).Inv ∧ (fourAdds.setPc 12).halted = false ∧
      ∃ t, step (fourAdds.setPc 12) = .next t ∧ t.halted = false ∧ t.imem.size ≤ t.pc.toNat) :=
  ⟨⟨inv_fourAdds_setPc 8, by decide, _, rfl, by decide⟩, inv_fourAdds_setPc 12, by decide, _, rfl, by decide, by decide⟩
theorem witness_RunReturnsHalted : (∃ t, runWithin 1 (fourAdds.setPc 12) = some t) ∧ 1 ≤ 2 := ⟨⟨_, rfl⟩, by decide⟩

/-! ### Faults, reset, construction, invariants -/

theorem witness_RaiseHaltsInPlace :
    smallMachine.accessFault .dmem 13 .half = some (.misaligned .dmem 13 .half) ∧
    DecodedInstr.toInstr (.ofUnknown 0x13) = .error (.unknownOpcode 0x13) := by decide
/-- A host read that faults on a machine that halted before. -/
theorem witness_FirstHaltCauseIsKept :
    Transaction.read .dmem 16 .byte ≠ .reset ∧
    (∃ t, transact (.read .dmem 16 .byte) (smallMachine.halt .haltWord) = .next t) ∧
    (smallMachine.halt .haltWord).haltCause ≠ .none := ⟨by decide, ⟨_, rfl⟩, by decide⟩
theorem witness_ResetClearsAllButMemory :
    (smallMachine.halt .haltWord).halted = true ∧
    ∃ t, transact .reset (smallMachine.halt .haltWord) = .next t ∧ t.halted = false := ⟨by decide, _, rfl, by decide⟩
theorem witness_ConstructionMakesTheGivenMachine :
    ¬(1 ≤ 0 ∧ 0 ≤ 2 ^ 32 ∧ 1 ≤ 1 ∧ 1 ≤ 2 ^ 32) ∧ ¬(1 ≤ 1 ∧ 1 ≤ 2 ^ 32 ∧ 1 ≤ 2 ^ 32 + 1 ∧ 2 ^ 32 + 1 ≤ 2 ^ 32) ∧
    (1 ≤ 1 ∧ 1 ≤ 2 ^ 32) ∧ (1 ≤ 2 ^ 32 ∧ 2 ^ 32 ≤ 2 ^ 32) := by decide
theorem witness_StepKeepsTheInvariant : smallMachine.Inv ∧ ∃ t, step smallMachine = .next t := ⟨inv_smallMachine, _, rfl⟩
theorem witness_TransactionsKeepTheInvariant :
    smallMachine.Inv ∧ ∃ t, Reaches smallMachine t ∧ t.halted = true ∧ t ≠ smallMachine :=
  ⟨inv_smallMachine, _, .tail .step (.refl _) rfl, by decide, by decide⟩

end Sys2Proof.Machine.Tests
end

section
/-! PROOFS. The statements about the register file and the rest of the state (spec/10_state.md). -/

namespace Sys2Proof.Machine

/-- Any register but x0 reads its own storage cell (R17). -/
theorem readReg_of_ne_zero {i : RegIdx} (h : i ≠ 0#5) (s : State) : s.readReg i = s.regs[i.toNat]'i.isLt := by
  rw [State.readReg, if_neg h]

/-- Any register but x0 reads back what was written to it (R18). -/
theorem readReg_writeReg_same {i : RegIdx} (h : i ≠ 0#5) (v : Word) (s : State) : (s.writeReg i v).readReg i = v := by
  rw [readReg_writeReg, if_neg h, if_pos rfl]

/-- Settles O11: each clause is one rule of the register file, and the frame of a register write field by field. -/
theorem registerReadAndWrite : Obligations.RegisterReadAndWrite := by
  unfold Obligations.RegisterReadAndWrite
  intro i v s
  have discards : i = 0 → s.writeReg i v = s := fun h => by rw [h]; exact writeReg_zero v s
  exact ⟨readReg_zero s, fun h => readReg_of_ne_zero h s, discards, fun h => readReg_writeReg_same h v s,
    fun _ h => readReg_writeReg_ne h v s, writeReg_pc i v s, writeReg_imem i v s, writeReg_dmem i v s,
    writeReg_halted i v s, writeReg_instructionCount i v s, writeReg_haltCause i v s⟩

end Sys2Proof.Machine
end

section
/-! PROOFS. The statements about the memories and their checked accesses (spec/20_memory.md). -/

namespace Sys2Proof.Machine

/-! ## What leaves a memory as it is -/

@[simp] theorem writeReg_mem (i : RegIdx) (v : Word) (s : State) (sp : Space) : (s.writeReg i v).mem sp = s.mem sp := by
  cases sp <;> simp

@[simp] theorem setPc_mem (p : Word) (s : State) (sp : Space) : (s.setPc p).mem sp = s.mem sp := by cases sp <;> rfl

@[simp] theorem countExecuted_mem (s : State) (sp : Space) : s.countExecuted.mem sp = s.mem sp := by cases sp <;> rfl

@[simp] theorem hostReset_mem (s : State) (sp : Space) : s.hostReset.mem sp = s.mem sp := by cases sp <;> rfl

@[simp] theorem pcCheck_mem (s : State) (sp : Space) : s.pcCheck.mem sp = s.mem sp := by cases sp <;> simp

/-- No step writes a memory (R60). -/
theorem step_mem {s t : State} (h : step s = .next t) (sp : Space) : t.mem sp = s.mem sp := by
  obtain ⟨u, hu, shape⟩ := step_shape s
  obtain rfl : u = t := by simpa [hu] using h
  rcases shape with rfl | ⟨c, _, rfl⟩ | ⟨f, rfl⟩ | ⟨rd, v, rfl⟩ <;> simp

/-- The register port leaves both memories. -/
@[simp] theorem setRegister_mem (index : Int) (v : Word) (s : State) (sp : Space) :
    (setRegister index v s).2.mem sp = s.mem sp := by
  rcases setRegister_cases index v s with ⟨_, h⟩ | ⟨_, h⟩ <;> simp [h]

/-- A checked read leaves both memories, whether it faults or not. -/
@[simp] theorem memRead_mem (sp : Space) (a : Addr) (w : Width) (s : State) (sp' : Space) :
    (s.memRead sp a w).2.mem sp' = s.mem sp' := by
  cases h : s.accessFault sp a w with
  | some f => simp [memRead_fault h]
  | none => simp [memRead_ok h]

/-- A checked write leaves the other memory, whether it faults or not (R38). -/
theorem memWrite_mem_ne {sp sp' : Space} (hne : sp' ≠ sp) (a : Addr) (w : Width) (v : Nat) (s : State) :
    (s.memWrite sp a w v).mem sp' = s.mem sp' := by
  cases h : s.accessFault sp a w with
  | some f => simp [memWrite_fault h]
  | none => rw [memWrite_ok h, setMem_mem_ne _ _ _ hne]

/-! ## The loaders -/

@[simp] theorem loadProgram_dmem (ws : List Word) (s : State) : (loadProgram ws s).dmem = s.dmem := rfl

@[simp] theorem loadProgram_imem (ws : List Word) (s : State) : (loadProgram ws s).imem = loadWordsFrom s.imem 0 ws := rfl

/-- The file loader leaves the data memory, whether it rejects the file or not (R38). -/
@[simp] theorem loadFile_dmem (bs : List Byte) (s : State) : (loadFile bs s).2.dmem = s.dmem := by
  rcases loadFile_cases bs s with ⟨_, h⟩ | ⟨_, _, ⟨_, h⟩ | ⟨_, h⟩⟩ <;> simp [h]

/-! ## The sizes -/

/-- A changed memory of the same size leaves the sizes. -/
theorem setMem_mem_size {sp : Space} {m : Memory} {s : State} (hm : m.size = (s.mem sp).size) (sp' : Space) :
    ((s.setMem sp m).mem sp').size = (s.mem sp').size := by
  by_cases h : sp' = sp
  · rw [h, setMem_mem_same, hm]
  · rw [setMem_mem_ne _ _ _ h]

@[simp] theorem memWrite_mem_size (sp : Space) (a : Addr) (w : Width) (v : Nat) (s : State) (sp' : Space) :
    ((s.memWrite sp a w v).mem sp').size = (s.mem sp').size := by
  cases h : s.accessFault sp a w with
  | some f => simp [memWrite_fault h]
  | none => rw [memWrite_ok h, setMem_mem_size (Memory.size_writeBytes _ _ _)]

theorem loadProgram_mem_size (ws : List Word) (s : State) (sp : Space) : ((loadProgram ws s).mem sp).size = (s.mem sp).size := by
  cases sp <;> simp

theorem loadFile_mem_size (bs : List Byte) (s : State) (sp : Space) : ((loadFile bs s).2.mem sp).size = (s.mem sp).size := by
  have hwrite := setMem_mem_size (s := s) (sp := .imem) (Memory.size_writeBytes s.imem 0 bs) sp
  rcases loadFile_cases bs s with ⟨_, h⟩ | ⟨_, _, ⟨_, h⟩ | ⟨_, h⟩⟩
  · rw [h]
  · rw [h, setPc_mem, hwrite]
  · rw [h, hwrite]

/-- The sizes never change (R38). -/
theorem transact_mem_size {x : Transaction} {s t : State} (h : transact x s = .next t) (sp : Space) :
    (t.mem sp).size = (s.mem sp).size := by
  rcases transact_cases h with ⟨_, hstep⟩ | ⟨_, ⟨_, rfl⟩ | ⟨_, u, hstep, rfl⟩⟩ | ⟨_, rfl⟩ | ⟨v, _, rfl⟩ |
    ⟨index, v, _, rfl⟩ | ⟨sp', a, w, _, rfl⟩ | ⟨sp', a, w, v, _, _, rfl⟩ | ⟨ws, _, rfl⟩ | ⟨bs, _, rfl⟩
  · rw [step_mem hstep]
  · rfl
  · rw [pcCheck_mem, step_mem hstep]
  · rw [hostReset_mem]
  · rw [setPc_mem]
  · rw [setRegister_mem]
  · rw [memRead_mem]
  · exact memWrite_mem_size sp' a w v s sp
  · exact loadProgram_mem_size ws s sp
  · exact loadFile_mem_size bs s sp

/-- Construction answers a machine only for two legal sizes and a successful allocation, and then the constructed one (R126). -/
theorem initMachine_next {allocates : Bool} {isz dsz : Nat} {fi fd : Nat → Byte} {t : State}
    (h : initMachine allocates isz dsz fi fd = .next t) :
    legalSize isz = true ∧ legalSize dsz = true ∧ allocates = true ∧ t = constructed isz dsz fi fd := by
  unfold initMachine at h
  split at h
  case isTrue => cases h
  case isFalse hsize =>
    split at h
    case isTrue => cases h
    case isFalse halloc =>
      cases h
      simp only [Bool.not_eq_true, Bool.not_eq_false', Bool.and_eq_true] at hsize halloc
      exact ⟨hsize.1, hsize.2, halloc, rfl⟩

/-- Settles O15: the sizes of construction, their preservation by every transaction, and the frame of each write to one memory. -/
theorem memoriesAreFixedAndDisjoint : Obligations.MemoriesAreFixedAndDisjoint := by
  unfold Obligations.MemoriesAreFixedAndDisjoint
  refine ⟨fun allocates isz dsz fi fd t h => ?_,
    fun x s t h => ⟨transact_mem_size h .imem, transact_mem_size h .dmem⟩,
    fun s sp sp' a w v hne => memWrite_mem_ne hne a w v s,
    fun s ws bs => ⟨loadProgram_dmem ws s, loadFile_dmem bs s⟩⟩
  obtain ⟨_, _, _, rfl⟩ := initMachine_next h
  exact ⟨rfl, rfl⟩

/-! ## A checked access at a legal address -/

/-- An aligned access inside the memory passes both tests (R43). -/
theorem accessFault_eq_none {s : State} {sp : Space} {a : Addr} {w : Width} (hal : a.toNat % w.bytes = 0)
    (hfit : a.toNat + w.bytes ≤ (s.mem sp).size) : s.accessFault sp a w = none := by
  have hpos := w.bytes_pos
  rcases accessFault_cases s sp a w with ⟨hout, _⟩ | ⟨_, _, hmis, _⟩ | ⟨_, _, hnone⟩
  · omega
  · exact absurd hal hmis
  · exact hnone

/-- What a checked write stores the same checked read gives back, cut to the width (R50). -/
theorem memRead_memWrite {s : State} {sp : Space} {a : Addr} {w : Width} (hwf : (s.mem sp).wf = true)
    (h : s.accessFault sp a w = none) (v : Nat) :
    (s.memWrite sp a w v).memRead sp a w = (v % 256 ^ w.bytes, s.memWrite sp a w v) := by
  have hread : (s.memWrite sp a w v).accessFault sp a w = none := by
    rw [accessFault_congr (memWrite_mem_size sp a w v s sp), h]
  have hbytes := Memory.readBytes_writeBytes hwf a.toNat (leBytes w.bytes v)
    (by rw [length_leBytes]; exact (accessFault_none h).1)
  rw [length_leBytes] at hbytes
  rw [memRead_ok hread, memWrite_ok h, setMem_mem_same, hbytes, leValue_leBytes]

/-- A successful checked write leaves every byte of its memory but the addressed ones (R50). -/
theorem memWrite_get_outside {s : State} {sp : Space} {a : Addr} {w : Width} (hwf : (s.mem sp).wf = true)
    (h : s.accessFault sp a w = none) (v : Nat) {a' : Nat} (ho : a' < a.toNat ∨ a.toNat + w.bytes ≤ a') :
    ((s.memWrite sp a w v).mem sp).get a' = (s.mem sp).get a' := by
  rw [memWrite_ok h, setMem_mem_same, Memory.get_writeBytes_outside hwf _ _ (by rwa [length_leBytes])]

theorem setMem_sameRegsPcCount (sp : Space) (m : Memory) (s : State) : SameRegsPcCount s (s.setMem sp m) :=
  ⟨setMem_readReg sp m s, setMem_pc sp m s, setMem_instructionCount sp m s⟩

/-- A value of n bytes is kept when it is cut to n bytes. -/
theorem ofNat_toNat_mod_pow (n : Nat) (v : BitVec (8 * n)) : BitVec.ofNat (8 * n) (v.toNat % 256 ^ n) = v := by
  have hlt : v.toNat < 256 ^ n := by simpa [pow_mul] using v.isLt
  rw [Nat.mod_eq_of_lt hlt, BitVec.ofNat_toNat, BitVec.setWidth_eq]

/-- Settles O19: the three accessors are the checked access at their width, whose bytes hold every value of their type. -/
theorem readAfterWriteGivesTheValue : Obligations.ReadAfterWriteGivesTheValue := by
  unfold Obligations.ReadAfterWriteGivesTheValue
  intro s sp a hwf
  refine ⟨fun v hal hfit => ?word, fun v hal hfit => ?half, fun v hfit => ?byte, fun w v hal hfit => ?frame⟩
  case word =>
    have hn : s.accessFault sp a .word = none := accessFault_eq_none hal hfit
    rw [readWord, writeWord, memRead_memWrite hwf hn]
    exact Prod.ext (ofNat_toNat_mod_pow 4 v) rfl
  case half =>
    have hn : s.accessFault sp a .half = none := accessFault_eq_none hal hfit
    rw [readHalfword, writeHalfword, memRead_memWrite hwf hn]
    exact Prod.ext (ofNat_toNat_mod_pow 2 v) rfl
  case byte =>
    have hn : s.accessFault sp a .byte = none := accessFault_eq_none (Nat.mod_one _) hfit
    rw [readByte, writeByte, memRead_memWrite hwf hn]
    exact Prod.ext (ofNat_toNat_mod_pow 1 v) rfl
  case frame =>
    have hn := accessFault_eq_none hal hfit
    refine ⟨by rw [memRead_ok hn], fun a' ho => memWrite_get_outside hwf hn v ho,
      fun sp' hne => memWrite_mem_ne hne a w v s, ?_⟩
    rw [memWrite_ok hn]
    exact ⟨setMem_sameRegsPcCount _ _ s, setMem_halted _ _ s, setMem_haltCause _ _ s⟩

/-! ## A checked access that fails -/

theorem raise_haltCause_recorded {s : State} (h : s.haltCause ≠ .none) (f : FaultInfo) :
    (s.raise f).haltCause = s.haltCause := by rw [raise_haltCause, if_neg h]

theorem raise_haltCause_first {s : State} (h : s.haltCause = .none) (f : FaultInfo) :
    (s.raise f).haltCause = .fault f := by rw [raise_haltCause, if_pos h]

/-- Raising a fault changes the flag and the cause alone (R49, R113). -/
theorem raise_frame (f : FaultInfo) (s : State) :
    SameRegsPcCount s (s.raise f) ∧ (s.raise f).imem = s.imem ∧ (s.raise f).dmem = s.dmem :=
  ⟨⟨raise_readReg f s, raise_pc f s, raise_instructionCount f s⟩, raise_imem f s, raise_dmem f s⟩

/-- Settles O16: the two tests answer a fault, which the read and the write raise alike, or none, and then neither raises one. -/
theorem failingAccessHaltsAndDoesNothing : Obligations.FailingAccessHaltsAndDoesNothing := by
  unfold Obligations.FailingAccessHaltsAndDoesNothing
  intro s sp a w v
  have hpos := w.bytes_pos
  rcases accessFault_cases s sp a w with ⟨hout, hf⟩ | ⟨hin, hw, hmis, hf⟩ | ⟨hin, hal, hn⟩
  · refine ⟨fun _ => ⟨_, memRead_fault hf, memWrite_fault hf v, raise_halted _ s, fun h => raise_haltCause_recorded h _,
      fun h => .inl (raise_haltCause_first h _), fun h _ => raise_haltCause_first h _, fun _ hin => ?_,
      raise_frame _ s⟩, fun hok => absurd (.inl hout) hok⟩
    omega
  · exact ⟨fun _ => ⟨_, memRead_fault hf, memWrite_fault hf v, raise_halted _ s, fun h => raise_haltCause_recorded h _,
      fun h => .inr (raise_haltCause_first h _), fun _ hal => absurd hal hmis, fun h _ => raise_haltCause_first h _,
      raise_frame _ s⟩, fun hok => absurd (.inr ⟨hw, hmis⟩) hok⟩
  · refine ⟨fun hfail => ?_, fun _ => ⟨by rw [memRead_ok hn], by rw [memWrite_ok hn, setMem_halted]⟩⟩
    rcases hfail with hout | ⟨_, hmis⟩
    · omega
    · exact absurd hal hmis

end Sys2Proof.Machine
end

section
/-! PROOFS. The statements about the decoder and the encoder (spec/30_encoding.md). -/

namespace Sys2Proof

/-! ## The fields of a word (R67) -/

/-- A bit field, widened to a word, is the word shifted down and masked to the field's width. -/
theorem setWidth_bitField (w : Word) (lo : Nat) {len : Nat} (h : len ≤ 32) :
    (bitField w lo len).setWidth 32 = (w >>> lo) &&& BitVec.ofNat 32 (2 ^ len - 1) := by
  have hlen : 2 ^ len ≤ 2 ^ 32 := Nat.pow_le_pow_right (by decide) h
  have hmask : 2 ^ len - 1 < 2 ^ 32 := (Nat.sub_lt (Nat.two_pow_pos len) Nat.one_pos).trans_le hlen
  apply BitVec.eq_of_toNat_eq
  calc ((bitField w lo len).setWidth 32).toNat
      = (bitField w lo len).toNat := BitVec.toNat_setWidth_of_le h
    _ = w.toNat / 2 ^ lo % 2 ^ len := toNat_bitField w lo len
    _ = ((w >>> lo) &&& BitVec.ofNat 32 (2 ^ len - 1)).toNat := by
      rw [BitVec.toNat_and, BitVec.toNat_ushiftRight, BitVec.toNat_ofNat, Nat.mod_eq_of_lt hmask,
        Nat.and_two_pow_sub_one_eq_mod, Nat.shiftRight_eq_div_pow]

/-- Bit j of a bit field is the word's bit j above the field's lowest. -/
theorem getLsbD_bitField (w : Word) (lo : Nat) {len j : Nat} (h : j < len) :
    (bitField w lo len).getLsbD j = w.getLsbD (lo + j) := by
  rw [bitField, BitVec.getLsbD_extractLsb', decide_eq_true h, Bool.true_and]

/-- Settles O2: each field is a bit field, and so is the masked shift of the word and its bits; only the opcode, at place 0, has
no shift written. -/
theorem fieldsAreShiftedAndMasked : Obligations.FieldsAreShiftedAndMasked := by
  unfold Obligations.FieldsAreShiftedAndMasked
  intro w
  have opcodeMasked : (opcodeField w).setWidth 32 = w &&& 0x7F#32 := by
    have h := setWidth_bitField w 0 (len := 7) (by decide)
    rwa [BitVec.ushiftRight_zero] at h
  have opcodeBit : ∀ {j}, j < 7 → (opcodeField w).getLsbD j = w.getLsbD j := fun h => by
    rw [opcodeField, getLsbD_bitField w 0 h, Nat.zero_add]
  exact ⟨opcodeMasked, setWidth_bitField w 7 (by decide), setWidth_bitField w 12 (by decide),
    setWidth_bitField w 15 (by decide), setWidth_bitField w 20 (by decide), setWidth_bitField w 25 (by decide),
    fun _ h => ⟨opcodeBit h, getLsbD_bitField w 25 h⟩, fun _ h => getLsbD_bitField w 12 h,
    fun _ h => ⟨getLsbD_bitField w 7 h, getLsbD_bitField w 15 h, getLsbD_bitField w 20 h⟩⟩

/-! ## The word rebuilt from its fields (R71) -/

/-- An encoded word is its fields, each shifted to its place, joined (R71). -/
theorem encodeFields_eq_or (f7 : Funct7) (rs2 rs1 : RegIdx) (f3 : Funct3) (rd : RegIdx) (op : Opcode) :
    encodeFields f7 rs2 rs1 f3 rd op =
      (f7.setWidth 32 <<< 25) ||| (rs2.setWidth 32 <<< 20) ||| (rs1.setWidth 32 <<< 15) ||| (f3.setWidth 32 <<< 12) |||
        (rd.setWidth 32 <<< 7) ||| op.setWidth 32 := by
  rw [← BitVec.setWidth_eq (encodeFields f7 rs2 rs1 f3 rd op), encodeFields]
  iterate 5 rw [BitVec.setWidth_append_eq_shiftLeft_setWidth_or]
  simp only [BitVec.shiftLeft_or_distrib, ← BitVec.shiftLeft_add]

/-- Settles O4: the decoder gives an R-type word its own fields, which encode to the word. -/
theorem decodedFieldsRebuildTheWord : Obligations.DecodedFieldsRebuildTheWord := by
  unfold Obligations.DecodedFieldsRebuildTheWord
  intro w hop
  have hr : opcodeField w = rTypeOpcode := by
    by_contra hne
    rw [decodeFields_unknown hne] at hop
    exact hne hop
  have hw := encodeFields_fields w
  rw [hr, encodeFields_eq_or] at hw
  rw [decodeFields_rType hr]
  exact hw.symm

/-! ## Decoding an encoded R-type word (R69, R76, R84) -/

/-- An encoded R-type word reaches the engine's two tests with the fields it was encoded from (R69, R100). -/
theorem decode_encodeFields_rType (f7 : Funct7) (rs2 rs1 : RegIdx) (f3 : Funct3) (rd : RegIdx) :
    decode (encodeFields f7 rs2 rs1 f3 rd rTypeOpcode) = (DecodedInstr.ofRType f7 rs2 rs1 f3 rd).toInstr := by
  have ho := opcodeField_encodeFields f7 rs2 rs1 f3 rd rTypeOpcode
  rw [decode, if_neg (ne_haltWord_of_rType ho), decodeFields_rType ho]
  simp

/-- Function codes with a row in the dispatch table decode to the row's operation (R84). -/
theorem decode_rType_of_select {f3 : Funct3} {f7 : Funct7} {op : AluOp} (h : select f3 f7 = some op) (rs2 rs1 rd : RegIdx) :
    decode (encodeFields f7 rs2 rs1 f3 rd rTypeOpcode) = .ok (op.instr (.ofRType f7 rs2 rs1 f3 rd)) := by
  rw [decode_encodeFields_rType]
  simp [DecodedInstr.toInstr, DecodedInstr.ofRType, h]

/-- Function codes with no row in the dispatch table are rejected by name (R84). -/
theorem decode_rType_of_select_none {f3 : Funct3} {f7 : Funct7} (h : select f3 f7 = none) (rs2 rs1 rd : RegIdx) :
    decode (encodeFields f7 rs2 rs1 f3 rd rTypeOpcode) = .error (.unknownFunction f3 f7) := by
  rw [decode_encodeFields_rType]
  simp [DecodedInstr.toInstr, DecodedInstr.ofRType, h]

/-- Settles O8: the dispatch table has the six rows whatever funct7 is, and no row for funct7 0x01 under funct3 0 and 5. -/
theorem anyFunct7SelectsTheOperation : Obligations.AnyFunct7SelectsTheOperation := by
  unfold Obligations.AnyFunct7SelectsTheOperation
  intro f7 rs2 rs1 rd
  exact ⟨decode_rType_of_select (op := .sll) rfl .., decode_rType_of_select (op := .slt) rfl ..,
    decode_rType_of_select (op := .sltu) rfl .., decode_rType_of_select (op := .xor) rfl ..,
    decode_rType_of_select (op := .or) rfl .., decode_rType_of_select (op := .and) rfl ..,
    decode_rType_of_select_none (by decide) .., decode_rType_of_select_none (by decide) ..⟩

end Sys2Proof
end

section
/-! PROOFS. The statements about the ten R-type instructions and the engine's dispatch (spec/40_alu_rtype.md). -/

namespace Sys2Proof.Machine

/-! ## One commit for all ten (R85, R86) -/

/-- A commit changes x[rd] and the pc alone (R85, R86). -/
theorem commit_commitsOnly (rd : RegIdx) (r : Word) (s : State) : CommitsOnly s (s.commit rd r) rd r.toNat := by
  have result : ((s.commit rd r).readReg rd).toNat = if rd = 0 then 0 else r.toNat := by
    by_cases h : rd = 0#5 <;> simp [readReg_writeReg, h]
  have pcAdvances : s.pc.toNat + 4 < 2 ^ 32 → (s.commit rd r).pc.toNat = s.pc.toNat + 4 := fun h => by
    rw [commit_pc, BitVec.toNat_add]
    exact Nat.mod_eq_of_lt h
  exact ⟨result, fun _ h => readReg_writeReg_ne h r s, pcAdvances, fun sp _ => by rw [commit_mem], fun sp => by rw [commit_mem],
    commit_halted rd r s, commit_instructionCount rd r s, commit_haltCause rd r s⟩

/-- The value each row of the dispatch table computes from its two sources; exec_instr ties it to exec. -/
def aluResult : AluOp → Word → Word → Word
  | .add, a, b => a + b
  | .sub, a, b => a - b
  | .sll, a, b => a <<< shiftAmount b
  | .slt, a, b => truthWord (signedLess a b)
  | .sltu, a, b => truthWord (unsignedLess a b)
  | .xor, a, b => a ^^^ b
  | .srl, a, b => a >>> shiftAmount b
  | .sra, a, b => a.sshiftRight (shiftAmount b)
  | .or, a, b => a ||| b
  | .and, a, b => a &&& b

/-- Each row's instruction commits the row's value to the Decoded Instruction's destination. -/
theorem exec_instr (op : AluOp) (d : DecodedInstr) (s : State) :
    exec (op.instr d) s = .next (s.commit d.rd (aluResult op (s.readReg d.rs1) (s.readReg d.rs2))) := by
  cases op <;> rfl

/-- An R-type word with a row in the dispatch table decodes to the row's instruction, which commits the row's value, a number v, and
changes nothing else: the shape of the ten statements. -/
theorem rType_decodes_and_commits {f3 : Funct3} {f7 : Funct7} {op : AluOp} (hsel : select f3 f7 = some op)
    (rd rs1 rs2 : RegIdx) (s : State) {v : Nat} (hv : (aluResult op (s.readReg rs1) (s.readReg rs2)).toNat = v) :
    decode (encodeFields f7 rs2 rs1 f3 rd rTypeOpcode) = .ok (op.instr (.ofRType f7 rs2 rs1 f3 rd)) ∧
    ∃ t, exec (op.instr (.ofRType f7 rs2 rs1 f3 rd)) s = .next t ∧ CommitsOnly s t rd v := by
  subst hv
  exact ⟨decode_rType_of_select hsel rs2 rs1 rd, _, exec_instr op _ s, commit_commitsOnly rd _ s⟩

/-! ## The values as numbers -/

/-- The difference of two registers is the integers' difference modulo 2^32 (R89). -/
theorem toNat_sub_eq_emod (a b : Word) : (a - b).toNat = (((a.toNat : Int) - b.toNat) % 2 ^ 32).toNat := by
  have ha := a.isLt
  have hb := b.isLt
  rw [BitVec.toNat_sub]
  omega

/-- The shift amount is x[rs2] modulo 32 (R87). -/
theorem shiftAmount_eq_mod (b : Word) : shiftAmount b = b.toNat % 32 :=
  (BitVec.toNat_and b 0x1F#32).trans (Nat.and_two_pow_sub_one_eq_mod b.toNat 5)

/-- A left shift multiplies by a power of two modulo 2^32 (R90). -/
theorem toNat_shiftLeft_shiftAmount (a b : Word) : (a <<< shiftAmount b).toNat = a.toNat * 2 ^ (b.toNat % 32) % 2 ^ 32 := by
  rw [BitVec.toNat_shiftLeft, shiftAmount_eq_mod, Nat.shiftLeft_eq]

/-- A logical right shift divides by a power of two (R94). -/
theorem toNat_ushiftRight_shiftAmount (a b : Word) : (a >>> shiftAmount b).toNat = a.toNat / 2 ^ (b.toNat % 32) := by
  rw [BitVec.toNat_ushiftRight, shiftAmount_eq_mod, Nat.shiftRight_eq_div_pow]

/-- The library's signed reading of a word is the spec's (R10). -/
theorem toInt_eq_signedValue (a : Word) : a.toInt = signedValue a := by
  rw [BitVec.toInt_eq_toNat_cond, signedValue]
  split <;> split <;> omega

/-- An arithmetic right shift divides the signed value by a power of two, rounding toward minus infinity (R95). -/
theorem toNat_sshiftRight_shiftAmount (a b : Word) :
    (a.sshiftRight (shiftAmount b)).toNat = (signedValue a / 2 ^ (b.toNat % 32) % 2 ^ 32).toNat := by
  rw [BitVec.sshiftRight, BitVec.toNat_ofInt, Int.shiftRight_eq_div_pow, toInt_eq_signedValue, shiftAmount_eq_mod]
  norm_cast

/-- A comparison's register value is 1 where it holds and 0 where it does not (R28). -/
theorem toNat_truthWord_decide (p : Prop) [Decidable p] : (truthWord (decide p)).toNat = if p then 1 else 0 := by
  by_cases h : p <;> simp [truthWord, h]

/-- The signed comparison's register value, in the spec's signed reading (R91). -/
theorem toNat_truthWord_signedLess (a b : Word) :
    (truthWord (signedLess a b)).toNat = if signedValue a < signedValue b then 1 else 0 := by
  rw [signedLess, toInt_eq_signedValue, toInt_eq_signedValue, toNat_truthWord_decide]

/-! ## The ten instructions -/

/-- Settles O27: the row's value is the difference of the integers modulo 2^32. -/
theorem subWritesTheDifference : Obligations.SubWritesTheDifference :=
  fun rd rs1 rs2 s => rType_decodes_and_commits (op := .sub) rfl rd rs1 rs2 s (toNat_sub_eq_emod _ _)

/-- Settles O29: the row's value is the comparison of the two signed readings. -/
theorem sltWritesTheSignedComparison : Obligations.SltWritesTheSignedComparison :=
  fun rd rs1 rs2 _ s => rType_decodes_and_commits (op := .slt) rfl rd rs1 rs2 s (toNat_truthWord_signedLess _ _)

/-- Settles O33: the row's value is the floor division of the signed reading by a power of two. -/
theorem sraWritesTheArithmeticShift : Obligations.SraWritesTheArithmeticShift :=
  fun rd rs1 rs2 s => rType_decodes_and_commits (op := .sra) rfl rd rs1 rs2 s (toNat_sshiftRight_shiftAmount _ _)

/-- Settles O26: the row's value is the sum modulo 2^32. -/
theorem addWritesTheSum : Obligations.AddWritesTheSum :=
  fun rd rs1 rs2 s => rType_decodes_and_commits (op := .add) rfl rd rs1 rs2 s (BitVec.toNat_add _ _)

/-- Settles O28: the row's value is the product with a power of two modulo 2^32. -/
theorem sllWritesTheLeftShift : Obligations.SllWritesTheLeftShift :=
  fun rd rs1 rs2 _ s => rType_decodes_and_commits (op := .sll) rfl rd rs1 rs2 s (toNat_shiftLeft_shiftAmount _ _)

/-- Settles O30: the row's value is the comparison of the two registers as natural numbers. -/
theorem sltuWritesTheUnsignedComparison : Obligations.SltuWritesTheUnsignedComparison :=
  fun rd rs1 rs2 _ s => rType_decodes_and_commits (op := .sltu) rfl rd rs1 rs2 s (toNat_truthWord_decide _)

/-- Settles O31: the row's value is the exclusive or of the two natural numbers. -/
theorem xorWritesTheExclusiveOr : Obligations.XorWritesTheExclusiveOr :=
  fun rd rs1 rs2 _ s => rType_decodes_and_commits (op := .xor) rfl rd rs1 rs2 s (BitVec.toNat_xor _ _)

/-- Settles O32: the row's value is the quotient by a power of two. -/
theorem srlWritesTheLogicalShift : Obligations.SrlWritesTheLogicalShift :=
  fun rd rs1 rs2 s => rType_decodes_and_commits (op := .srl) rfl rd rs1 rs2 s (toNat_ushiftRight_shiftAmount _ _)

/-- Settles O34: the row's value is the inclusive or of the two natural numbers. -/
theorem orWritesTheInclusiveOr : Obligations.OrWritesTheInclusiveOr :=
  fun rd rs1 rs2 _ s => rType_decodes_and_commits (op := .or) rfl rd rs1 rs2 s (BitVec.toNat_or _ _)

/-- Settles O35: the row's value is the and of the two natural numbers. -/
theorem andWritesTheAnd : Obligations.AndWritesTheAnd :=
  fun rd rs1 rs2 _ s => rType_decodes_and_commits (op := .and) rfl rd rs1 rs2 s (BitVec.toNat_and _ _)

/-! ## The engine's dispatch (R83, R84) -/

/-- An opcode that is not R-type raises its fault before any function code is looked at (R83). -/
theorem executeDecoded_unknownOpcode {d : DecodedInstr} (ho : d.opcode ≠ rTypeOpcode) (s : State) :
    executeDecoded d s = .next (s.raise (.unknownOpcode d.opcode)) := by
  simp [executeDecoded, DecodedInstr.toInstr, ho, rejectFault]

/-- Function codes with a row in the dispatch table run the row's instruction (R84). -/
theorem executeDecoded_of_select {d : DecodedInstr} {op : AluOp} (ho : d.opcode = rTypeOpcode)
    (h : select d.funct3 d.funct7 = some op) (s : State) : executeDecoded d s = exec (op.instr d) s := by
  simp [executeDecoded, DecodedInstr.toInstr, ho, h]

/-- Function codes with no row raise their fault (R84). -/
theorem executeDecoded_of_select_none {d : DecodedInstr} (ho : d.opcode = rTypeOpcode) (h : select d.funct3 d.funct7 = none)
    (s : State) : executeDecoded d s = .next (s.raise (.unknownFunction d.funct3 d.funct7)) := by
  simp [executeDecoded, DecodedInstr.toInstr, ho, h, rejectFault]

/-- A step of a running machine at a fetchable pc goes on with the word there (R100). -/
theorem step_of_fetchable {s : State} (hh : s.halted = false) (hf : s.fetchable = true) : step s = stepFetched s.nextWord s := by
  simp [step, stepOnce, hh, fetch_ok hf]

/-- A fetched word that is not the halt word is given to the engine once and counted (R100, R101). -/
theorem stepFetched_of_ne_haltWord {w : Word} (h : w ≠ haltWord) (s : State) :
    stepFetched w s = countAfter (executeDecoded (decodeFields w) s) := if_neg h

/-- Settles O36: the opcode test, then each row of the table by its function codes, then the codes no row lists. -/
theorem engineDispatchesByTheTable : Obligations.EngineDispatchesByTheTable := by
  unfold Obligations.EngineDispatchesByTheTable
  intro d s
  have row {f3 : Funct3} {f7 : Funct7} {op : AluOp} (hsel : select f3 f7 = some op) (ho : d.opcode = 0x33)
      (h3 : d.funct3 = f3) (h7 : d.funct7 = f7) : executeDecoded d s = exec (op.instr d) s :=
    executeDecoded_of_select ho (by rw [h3, h7, hsel]) s
  have anyRow {f3 : Funct3} {op : AluOp} (hsel : ∀ f7, select f3 f7 = some op) (ho : d.opcode = 0x33) (h3 : d.funct3 = f3) :
      executeDecoded d s = exec (op.instr d) s := row (hsel _) ho h3 rfl
  exact ⟨fun ho => executeDecoded_unknownOpcode ho s, row (op := .add) rfl, row (op := .sub) rfl,
    anyRow (op := .sll) fun _ => rfl, anyRow (op := .slt) fun _ => rfl, anyRow (op := .sltu) fun _ => rfl,
    anyRow (op := .xor) fun _ => rfl, row (op := .srl) rfl, row (op := .sra) rfl,
    anyRow (op := .or) fun _ => rfl, anyRow (op := .and) fun _ => rfl,
    fun ho h3 h7 h7' => executeDecoded_of_select_none ho ((select_eq_none_iff _ _).mpr ⟨h3, h7, h7'⟩) s,
    fun f => ⟨raise_halted f s, raise_readReg f s, raise_pc f s, raise_instructionCount f s⟩,
    fun hh hf hw => (step_of_fetchable hh hf).trans (stepFetched_of_ne_haltWord hw s)⟩

end Sys2Proof.Machine
end

section
/-! PROOFS. The statements about the halt word and the sequencer (spec/41_halt_and_sequencer.md). -/

namespace Sys2Proof.Machine

/-! ## A halted machine (R25, R104) -/

theorem step_of_halted {s : State} (h : s.halted = true) : step s = .next s := if_pos h

theorem iterateRun_of_halted {s : State} (h : s.halted = true) : iterateRun s = .next s := if_pos h

/-- Whatever number of iterations is allowed, `run` returns a halted state before its first. -/
theorem runWithin_of_halted {s : State} (h : s.halted = true) (k : Nat) : runWithin k s = some s := by
  cases k with
  | zero => exact if_pos h
  | succ k => exact if_pos h

/-- Settles O41: each of the three tests the flag before anything else. -/
theorem haltedMachineIsIdle : Obligations.HaltedMachineIsIdle :=
  fun _ h => ⟨step_of_halted h, iterateRun_of_halted h, runWithin_of_halted h⟩

/-! ## The halt word (R98) -/

/-- HALT's row of the opcode table is the word 0 alone (R73, R74). -/
theorem decode_eq_halt_iff (w : Word) : decode w = .ok .halt ↔ w = haltWord :=
  ⟨fun h => (decode_ne_halt_iff w .halt h).mp rfl, fun h => if_pos h⟩

theorem exec_halt (s : State) : exec .halt s = .next (s.halt .haltWord) := rfl

/-- After a fault HALT changes nothing: the fault has halted the machine and its cause is the first (R98). -/
theorem exec_halt_raise (f : FaultInfo) (s : State) : exec .halt (s.raise f) = .next (s.raise f) := by
  rw [exec_halt, raise_halt]

/-- The halt word is executed as HALT and not counted (R100, R101). -/
theorem stepFetched_haltWord (s : State) : stepFetched haltWord s = exec .halt s := if_pos rfl

/-- A fetch at a pc that is not fetchable faults and delivers the word 0 (R49, R51). -/
theorem fetch_of_not_fetchable {s : State} (h : s.fetchable = false) : ∃ f, s.fetch = (haltWord, s.raise f) := by
  rcases fetch_cases s with ⟨f, _, e⟩ | ⟨ha, _⟩
  · exact ⟨f, e⟩
  · rw [(fetchable_iff s).mpr ha] at h
    cases h

/-- A step of a running machine goes on with what the fetch delivers, be it a word or a fault's 0 (R100). -/
theorem step_of_running {s : State} (h : s.halted = false) : step s = stepFetched s.fetch.1 s.fetch.2 := by
  rw [step, stepOnce, h]
  rfl

/-- Settles O39: HALT is one halt, which a fetched word 0 reaches from the state itself and a faulting fetch from the state its
fault has halted. -/
theorem haltWordHalts : Obligations.HaltWordHalts := by
  unfold Obligations.HaltWordHalts
  refine ⟨decode_eq_halt_iff, fun s => ⟨?halts, ?atTheHaltWord, ?atAFault⟩⟩
  case halts =>
    exact ⟨_, exec_halt s, halt_halted _ s, halt_haltCause _ s,
      ⟨fun r => halt_readReg _ s r, halt_pc _ s, halt_instructionCount _ s⟩, halt_imem _ s, halt_dmem _ s⟩
  case atTheHaltWord =>
    intro hh hf hw
    rw [step_of_fetchable hh hf, hw]
    exact stepFetched_haltWord s
  case atAFault =>
    intro hh hf
    obtain ⟨f, hfetch⟩ := fetch_of_not_fetchable hf
    have takesHaltsPath : step s = exec .halt (s.raise f) := by
      rw [step_of_running hh, hfetch, stepFetched_haltWord]
    rw [hfetch]
    exact ⟨rfl, takesHaltsPath, s.raise f, takesHaltsPath.trans (exec_halt_raise f s), raise_halted f s, rfl,
      raise_instructionCount f s⟩

end Sys2Proof.Machine
end

section
/-! PROOFS. The statements about faults (spec/60_exceptions.md). -/

namespace Sys2Proof.Machine

/-- The engine does nothing with a rejected instruction but raise its fault (R83, R84). -/
theorem executeDecoded_of_reject {d : DecodedInstr} {r : Reject} (h : d.toInstr = .error r) (s : State) :
    executeDecoded d s = .next (s.raise (rejectFault r)) := by
  rw [executeDecoded, h]

/-- Settles O51: the flag, the cause and the frame of a raise; then a memory fault and an execute fault, each of which is a raise. -/
theorem raiseHaltsInPlace : Obligations.RaiseHaltsInPlace := by
  unfold Obligations.RaiseHaltsInPlace
  intro f s
  obtain ⟨sameRegsPcCount, sameImem, sameDmem⟩ := raise_frame f s
  exact ⟨raise_halted f s, raise_haltCause f s, sameRegsPcCount, sameImem, sameDmem,
    fun _ _ _ hf => ⟨memRead_fault hf, memWrite_fault hf⟩, fun _ _ hr => executeDecoded_of_reject hr s⟩

end Sys2Proof.Machine
end

section
/-! PROOFS. Decoding and encoding undo each other, on words and on bytes, and the opcode table (spec/30_encoding.md). -/

namespace Sys2Proof

/-! ## The encoder by the Decoded Instruction (R73, R82) -/

/-- An instruction other than HALT is encoded by the fields of the Decoded Instruction it stands for (R66, R73). -/
theorem encode_of_ne_halt {i : Instr} (h : i ≠ .halt) :
    encode i = encodeFields i.decoded.funct7 i.decoded.rs2 i.decoded.rs1 i.decoded.funct3 i.decoded.rd rTypeOpcode := by
  cases i with
  | halt => exact absurd rfl h
  | _ => rfl

/-- Settles O5: each row of the dispatch table is selected by the function codes its instruction is encoded with. -/
theorem decodeOfEncodeIsTheInstruction : Obligations.DecodeOfEncodeIsTheInstruction := by
  unfold Obligations.DecodeOfEncodeIsTheInstruction
  intro i _
  cases i with
  | add rd rs1 rs2 => exact decode_rType_of_select (op := .add) rfl rs2 rs1 rd
  | sub rd rs1 rs2 => exact decode_rType_of_select (op := .sub) rfl rs2 rs1 rd
  | sll rd rs1 rs2 f => exact decode_rType_of_select (op := .sll) rfl rs2 rs1 rd
  | slt rd rs1 rs2 f => exact decode_rType_of_select (op := .slt) rfl rs2 rs1 rd
  | sltu rd rs1 rs2 f => exact decode_rType_of_select (op := .sltu) rfl rs2 rs1 rd
  | xor rd rs1 rs2 f => exact decode_rType_of_select (op := .xor) rfl rs2 rs1 rd
  | srl rd rs1 rs2 => exact decode_rType_of_select (op := .srl) rfl rs2 rs1 rd
  | sra rd rs1 rs2 => exact decode_rType_of_select (op := .sra) rfl rs2 rs1 rd
  | or rd rs1 rs2 f => exact decode_rType_of_select (op := .or) rfl rs2 rs1 rd
  | and rd rs1 rs2 f => exact decode_rType_of_select (op := .and) rfl rs2 rs1 rd
  | halt => exact (Machine.decode_eq_halt_iff _).mpr rfl

/-- Settles O6: the Decoded Instruction of the instruction holds the fields of the word, and the fields make up the word. -/
theorem encodeOfDecodeIsTheWord : Obligations.EncodeOfDecodeIsTheWord := by
  unfold Obligations.EncodeOfDecodeIsTheWord
  intro w i h
  have hd : i.decoded = decodeFields w := decoded_of_decode h
  rcases decode_cases w with ⟨hw, _⟩ | ⟨_, _, he⟩ | ⟨_, _, he⟩ | ⟨ho, _⟩
  · rw [(decode_ne_halt_iff w i h).mpr hw, hw]
    rfl
  · rw [he] at h; cases h
  · rw [he] at h; cases h
  · have hi : i ≠ .halt := fun e => ne_haltWord_of_rType ho ((decode_ne_halt_iff w i h).mp e)
    have hfields := encodeFields_fields w
    rw [ho] at hfields
    rw [encode_of_ne_halt hi, hd, decodeFields_rType ho]
    exact hfields

/-! ## Bytes (R66, R79) -/

/-- A word's four bytes, whatever follows them, are decoded as the word (R66, R79). -/
theorem decodeBytes_leBytes_append {w : Word} {i : Instr} (h : decode w = .ok i) (rest : List Byte) :
    decodeBytes (leBytes 4 w.toNat ++ rest) = .ok (i, rest) := by
  have hvalue : BitVec.ofNat 32 (leValue (leBytes 4 w.toNat)) = w := by
    rw [leValue_leBytes]
    exact Machine.ofNat_toNat_mod_pow 4 w
  simp only [leBytes] at hvalue
  simp only [leBytes, List.cons_append, List.nil_append, decodeBytes, hvalue, h]

/-- Fewer than four bytes hold no instruction (R79). -/
theorem decodeBytes_of_length_lt {bs : List Byte} (h : bs.length < 4) : decodeBytes bs = .error .tooShort := by
  rcases bs with _ | ⟨_, _ | ⟨_, _ | ⟨_, _ | ⟨_, bs⟩⟩⟩⟩
  case cons.cons.cons.cons => simp only [List.length_cons] at h; omega
  all_goals rfl

/-- Settles O9: the bytes of an instruction are its word's, which decodes to it. -/
theorem bytesDecodeToTheInstruction : Obligations.BytesDecodeToTheInstruction :=
  fun i rest hi => ⟨decodeBytes_leBytes_append (decodeOfEncodeIsTheInstruction i hi) rest, decodeBytes_of_length_lt⟩

/-! ## The assembler (R82) -/

theorem encode_assemble (op : AluOp) (rd rs1 rs2 : RegIdx) :
    encode (assemble op rd rs1 rs2) = encodeFields op.funct7 rs2 rs1 op.funct3 rd rTypeOpcode := by
  cases op <;> rfl

/-- The function codes the assembler gives an operation select it (R82, R84). -/
theorem select_funct3_funct7 (op : AluOp) : select op.funct3 op.funct7 = some op := by
  cases op <;> rfl

/-- Settles O10: an assembled word is its fields, each shifted to its place, joined. -/
theorem assembledWordIsTheFormula : Obligations.AssembledWordIsTheFormula := by
  unfold Obligations.AssembledWordIsTheFormula
  refine ⟨rfl, fun op rd rs1 rs2 => ⟨?_, select_funct3_funct7 op⟩⟩
  rw [encode_assemble, encodeFields_eq_or]
  rfl

/-! ## The opcode table (R73) -/

/-- Whether an operation's row of the opcode table says what funct7 is; row_selects_iff ties it to the table. -/
def AluOp.fixesFunct7 : AluOp → Bool
  | .add | .sub | .srl | .sra => true
  | .sll | .slt | .sltu | .xor | .or | .and => false

/-- The row of an operation: its word with every register x0, and the mask of the fields the row reads; opcodeTable_eq ties it to the
table. -/
def AluOp.row (op : AluOp) : OpcodeRow :=
  { mnemonic := (assemble op 0 0 0).mnemonic
    matchBits := encodeFields op.funct7 0 0 op.funct3 0 rTypeOpcode
    mask := if op.fixesFunct7 then 0xFE00707F#32 else 0x0000707F#32 }

/-- HALT's row of the opcode table (R74). -/
def haltRow : OpcodeRow := ⟨"HALT", 0x00000000, 0xFFFFFFFF⟩

/-- The ten operations, in the order of the opcode table. -/
def AluOp.all : List AluOp := [.add, .sub, .sll, .slt, .sltu, .xor, .srl, .sra, .or, .and]

theorem opcodeTable_eq : opcodeTable = AluOp.all.map AluOp.row ++ [haltRow] := by decide

/-- The opcode table is a row for each of the ten operations, and HALT's. -/
theorem mem_opcodeTable_iff (row : OpcodeRow) : row ∈ opcodeTable ↔ (∃ op : AluOp, row = op.row) ∨ row = haltRow := by
  have hall : ∀ op, op ∈ AluOp.all := fun op => by cases op <;> decide
  simp [opcodeTable_eq, hall, eq_comm]

theorem encodeFields_inj {f7 f7' : Funct7} {rs2 rs1 rd : RegIdx} {f3 f3' : Funct3} {op op' : Opcode} :
    encodeFields f7 rs2 rs1 f3 rd op = encodeFields f7' rs2 rs1 f3' rd op' ↔ f7 = f7' ∧ f3 = f3' ∧ op = op' := by
  refine ⟨fun h => ⟨?_, ?_, ?_⟩, fun ⟨h7, h3, ho⟩ => by rw [h7, h3, ho]⟩
  · simpa using congrArg funct7Field h
  · simpa using congrArg funct3Field h
  · simpa using congrArg opcodeField h

/-- An operation's instruction stands for the operation's funct3, and for its funct7 where the row fixes it (R73). -/
theorem decoded_instr_functs (op : AluOp) (d : DecodedInstr) :
    (op.instr d).decoded.funct3 = op.funct3 ∧ (op.fixesFunct7 = true → (op.instr d).decoded.funct7 = op.funct7) := by
  cases op with
  | add | sub | srl | sra => exact ⟨rfl, fun _ => rfl⟩
  | _ => exact ⟨rfl, nofun⟩

/-- The dispatch selects an operation by funct3, and by funct7 where the operation's row fixes it (R84). -/
theorem select_eq_some_iff (f3 : Funct3) (f7 : Funct7) (op : AluOp) :
    select f3 f7 = some op ↔ f3 = op.funct3 ∧ (op.fixesFunct7 = true → f7 = op.funct7) := by
  constructor
  · intro h
    have functs := decoded_instr_functs op (.ofRType f7 0 0 f3 0)
    rwa [decoded_instr h] at functs
  · rintro ⟨rfl, h7⟩
    cases op with
    | add | sub | srl | sra => rw [h7 rfl]; rfl
    | _ => rfl

/-- An operation's row selects the R-type words whose function codes the dispatch gives the operation (R73, R84). -/
theorem row_selects_iff (op : AluOp) (w : Word) :
    op.row.selects w = true ↔ opcodeField w = rTypeOpcode ∧ select (funct3Field w) (funct7Field w) = some op := by
  rw [OpcodeRow.selects, beq_iff_eq, select_eq_some_iff]
  nth_rw 1 [← encodeFields_fields w]
  cases hf : op.fixesFunct7 with
  | true =>
    simp only [AluOp.row, hf, if_true, encodeFields_and_fullMask, encodeFields_inj]
    tauto
  | false =>
    have hf7 : op.funct7 = 0 := by revert hf; cases op <;> decide
    simp only [AluOp.row, hf, hf7, Bool.false_eq_true, if_false, encodeFields_and_anyMask, encodeFields_inj]
    tauto

/-- HALT's row selects the halt word alone (R74). -/
theorem haltRow_selects_iff (w : Word) : haltRow.selects w = true ↔ w = haltWord := by
  have hmask : w &&& haltRow.mask = w := BitVec.and_allOnes
  rw [OpcodeRow.selects, hmask, beq_iff_eq]
  rfl

/-- An operation's instruction has the mnemonic of the operation's row, whatever its operands. -/
theorem row_mnemonic (op : AluOp) (d : DecodedInstr) : op.row.mnemonic = (op.instr d).mnemonic := by
  cases op <;> rfl

/-- A row of the table that selects a word is HALT's, at the halt word, or the row of the operation that the dispatch selects. -/
theorem selects_cases {row : OpcodeRow} (hmem : row ∈ opcodeTable) {w : Word} (h : row.selects w = true) :
    (row = haltRow ∧ w = haltWord) ∨
    (opcodeField w = rTypeOpcode ∧ ∃ op, row = op.row ∧ select (funct3Field w) (funct7Field w) = some op) := by
  rcases (mem_opcodeTable_iff row).mp hmem with ⟨op, rfl⟩ | rfl
  · obtain ⟨ho, hs⟩ := (row_selects_iff op w).mp h
    exact .inr ⟨ho, op, rfl, hs⟩
  · exact .inl ⟨rfl, (haltRow_selects_iff w).mp h⟩

/-- Settles O7: HALT's row selects the halt word, which is not R-type; an operation's row selects a word exactly when the dispatch
selects the operation, and the dispatch selects one operation or none. -/
theorem opcodeTableSelectsTheInstruction : Obligations.OpcodeTableSelectsTheInstruction := by
  unfold Obligations.OpcodeTableSelectsTheInstruction
  intro w
  rcases decode_cases w with ⟨rfl, hd⟩ | ⟨hw, ho, hd⟩ | ⟨ho, hs, hd⟩ | ⟨ho, op, hs, hd⟩ <;> rw [hd]
  · refine ⟨fun i hi => ⟨haltRow, (mem_opcodeTable_iff _).mpr (.inr rfl), (haltRow_selects_iff _).mpr rfl, by cases hi; rfl,
      fun row hmem hsel => ?_⟩, nofun⟩
    rcases selects_cases hmem hsel with ⟨hrow, _⟩ | ⟨ho, _⟩
    · exact hrow
    · exact absurd rfl (ne_haltWord_of_rType ho)
  · refine ⟨nofun, fun r _ row hmem => Bool.eq_false_iff.mpr fun hsel => ?_⟩
    rcases selects_cases hmem hsel with ⟨_, hw'⟩ | ⟨ho', _⟩
    · exact hw hw'
    · exact ho ho'
  · refine ⟨nofun, fun r _ row hmem => Bool.eq_false_iff.mpr fun hsel => ?_⟩
    rcases selects_cases hmem hsel with ⟨_, hw⟩ | ⟨_, op, _, hs'⟩
    · exact ne_haltWord_of_rType ho hw
    · cases hs.symm.trans hs'
  · refine ⟨fun i hi => ⟨op.row, (mem_opcodeTable_iff _).mpr (.inl ⟨op, rfl⟩), (row_selects_iff op w).mpr ⟨ho, hs⟩,
      by cases hi; exact row_mnemonic op _, fun row hmem hsel => ?_⟩, nofun⟩
    rcases selects_cases hmem hsel with ⟨_, hw⟩ | ⟨_, op', hrow, hs'⟩
    · exact absurd hw (ne_haltWord_of_rType ho)
    · rw [hrow, Option.some.inj (hs'.symm.trans hs)]

/-! ## The decoder (R67 to R71) -/

/-- Settles O1: the eleven instructions' words and the two rejected ones, by evaluation. -/
theorem decodesTheSpecsWords : Obligations.DecodesTheSpecsWords := by
  unfold Obligations.DecodesTheSpecsWords
  decide

theorem wellFormed_ofUnknown {op : Opcode} (h : op ≠ rTypeOpcode) : (DecodedInstr.ofUnknown op).wellFormed = true := by
  simp [DecodedInstr.wellFormed, DecodedInstr.formatAgrees, DecodedInstr.immZero, DecodedInstr.unknownZeroed,
    DecodedInstr.ofUnknown, h]

/-- Settles O3: the opcode decides which of the two formats the decoder builds, and each is built with its own fields. -/
theorem decoderGivesTheTwoFormats : Obligations.DecoderGivesTheTwoFormats := by
  unfold Obligations.DecoderGivesTheTwoFormats
  intro w
  by_cases ho : opcodeField w = rTypeOpcode
  · rw [decodeFields_rType ho]
    exact ⟨ho.symm, rfl, rfl, fun _ => ⟨rfl, rfl, rfl, rfl, rfl, rfl⟩, fun h => absurd ho h⟩
  · rw [decodeFields_unknown ho]
    exact ⟨rfl, rfl, wellFormed_ofUnknown ho, fun h => absurd h ho, fun _ => ⟨rfl, rfl, rfl, rfl, rfl, rfl⟩⟩

/-! ## What a word decodes to, by its fields (R83, R84) -/

theorem decode_of_unknownOpcode {w : Word} (hw : w ≠ haltWord) (ho : opcodeField w ≠ rTypeOpcode) :
    decode w = .error (.unknownOpcode (opcodeField w)) := by
  rcases decode_cases w with ⟨hw', _⟩ | ⟨_, _, hd⟩ | ⟨ho', _⟩ | ⟨ho', _⟩
  · exact absurd hw' hw
  · exact hd
  · exact absurd ho' ho
  · exact absurd ho' ho

theorem decode_of_unknownFunction {w : Word} (ho : opcodeField w = rTypeOpcode)
    (hs : select (funct3Field w) (funct7Field w) = none) :
    decode w = .error (.unknownFunction (funct3Field w) (funct7Field w)) := by
  have hd := decode_rType_of_select_none hs (rs2Field w) (rs1Field w) (rdField w)
  rwa [← ho, encodeFields_fields] at hd

/-- An R-type word with a row in the dispatch table decodes to the row's instruction, with the word's own destination. -/
theorem decode_of_select {w : Word} {op : AluOp} (ho : opcodeField w = rTypeOpcode)
    (hs : select (funct3Field w) (funct7Field w) = some op) :
    ∃ i, decode w = .ok i ∧ i ≠ .halt ∧ i.decoded.rd = rdField w := by
  have hd := decode_rType_of_select hs (rs2Field w) (rs1Field w) (rdField w)
  rw [← ho, encodeFields_fields] at hd
  refine ⟨_, hd, fun hi => ne_haltWord_of_rType ho ((decode_ne_halt_iff w _ hd).mp hi), ?_⟩
  rw [decoded_instr hs]
  rfl

end Sys2Proof
end

section
/-! PROOFS. The host's register port (spec/10_state.md R19, R20). -/

namespace Sys2Proof.Machine

theorem validRegIndex_iff (index : Int) : validRegIndex index = true ↔ 0 ≤ index ∧ index ≤ 31 := decide_eq_true_iff

theorem regOfIndex_eq_ofInt {index : Int} (h : 0 ≤ index) : regOfIndex index = BitVec.ofInt 5 index := by
  obtain ⟨n, rfl⟩ := Int.eq_ofNat_of_zero_le h
  simp [regOfIndex]

/-- A valid index reads the register it names (R19). -/
theorem getRegister_valid {index : Int} (h : 0 ≤ index ∧ index ≤ 31) (s : State) :
    getRegister index s = (s.readReg (BitVec.ofInt 5 index), .ok) := by
  rw [getRegister, if_pos ((validRegIndex_iff index).mpr h), regOfIndex_eq_ofInt h.1]

theorem getRegister_invalid {index : Int} (h : ¬(0 ≤ index ∧ index ≤ 31)) (s : State) :
    getRegister index s = (0#32, .invalidRegister) :=
  if_neg (mt (validRegIndex_iff index).mp h)

/-- A valid index writes the register it names, as an instruction would (R20). -/
theorem setRegister_valid {index : Int} (h : 0 ≤ index ∧ index ≤ 31) (v : Word) (s : State) :
    setRegister index v s = (.ok, s.writeReg (BitVec.ofInt 5 index) v) := by
  rw [setRegister, if_pos ((validRegIndex_iff index).mpr h), regOfIndex_eq_ofInt h.1]

theorem setRegister_invalid {index : Int} (h : ¬(0 ≤ index ∧ index ≤ 31)) (v : Word) (s : State) :
    setRegister index v s = (.invalidRegister, s) :=
  if_neg (mt (validRegIndex_iff index).mp h)

/-- Settles O13: a valid index is the register it names, and a write to register 0 is discarded. -/
theorem hostRegisterPort : Obligations.HostRegisterPort := by
  unfold Obligations.HostRegisterPort
  intro index v s
  refine ⟨fun h => getRegister_valid h s, fun h => getRegister_invalid h s, fun h => setRegister_valid ⟨by omega, h.2⟩ v s,
    fun h => ?_, fun h => setRegister_invalid h v s⟩
  subst h
  exact setRegister_valid (by decide) v s

end Sys2Proof.Machine
end

section
/-! PROOFS. The checked accesses byte by byte, the loaders and the refusals of the host's operations (spec/20_memory.md). -/

namespace Sys2Proof.Machine

/-! ## The two tests of a checked access (R43 to R46) -/

/-- The bounds are tested first (R45). -/
theorem accessFault_of_outOfBounds {s : State} {sp : Space} {a : Addr} {w : Width}
    (h : (s.mem sp).size ≤ a.toNat + w.bytes - 1) : s.accessFault sp a w = some (.outOfBounds sp a w) := if_pos h

/-- The alignment is tested where the bounds hold (R46). -/
theorem accessFault_of_misaligned {s : State} {sp : Space} {a : Addr} {w : Width}
    (hin : a.toNat + w.bytes - 1 < (s.mem sp).size) (hw : 1 < w.bytes) (hmis : a.toNat % w.bytes ≠ 0) :
    s.accessFault sp a w = some (.misaligned sp a w) := by
  rw [State.accessFault, if_neg (by omega), if_pos ⟨hw, hmis⟩]

/-- An access inside the memory that is one byte wide or aligned passes both tests. -/
theorem accessFault_of_legal {s : State} {sp : Space} {a : Addr} {w : Width}
    (hin : a.toNat + w.bytes - 1 < (s.mem sp).size) (hal : w.bytes = 1 ∨ a.toNat % w.bytes = 0) :
    s.accessFault sp a w = none := by
  have hpos := w.bytes_pos
  refine accessFault_eq_none ?_ (by omega)
  rcases hal with h1 | h0
  · rw [h1, Nat.mod_one]
  · exact h0

/-! ## Bytes and the value they make (R42) -/

/-- The little-endian value of a run of bytes is the sum of byte k at weight 2^(8k) (R42). -/
theorem leValue_readBytes (m : Memory) (a n : Nat) :
    leValue (m.readBytes a n) = ∑ k ∈ Finset.range n, (m.get (a + k)).toNat * 2 ^ (8 * k) := by
  induction n generalizing a with
  | zero => rfl
  | succ n ih =>
    have weight (k : Nat) :
        (m.get (a + (k + 1))).toNat * 2 ^ (8 * (k + 1)) = 256 * ((m.get (a + 1 + k)).toNat * 2 ^ (8 * k)) := by
      rw [show a + (k + 1) = a + 1 + k by omega]
      ring
    rw [Memory.readBytes, leValue, ih, Finset.sum_range_succ', Finset.sum_congr rfl fun k _ => weight k, ← Finset.mul_sum]
    simp [Nat.add_comm]

/-- Byte k of a value in memory order, as the statements write it. -/
theorem getElem_leBytes (n v k : Nat) (h : k < (leBytes n v).length) : (leBytes n v)[k] = BitVec.ofNat 8 (v / 2 ^ (8 * k)) := by
  have hk : k < n := by rwa [length_leBytes] at h
  have hbyte := getElem?_leBytes n v k hk
  rw [List.getElem?_eq_getElem h, show 256 ^ k = 2 ^ (8 * k) from (pow_mul 2 8 k).symm] at hbyte
  exact Option.some.inj hbyte

/-- A memory that holds the bytes of a value from an address on gives the value back, cut to the number of bytes read (R42). -/
theorem leValue_readBytes_of_bytes {m : Memory} {a n v : Nat}
    (h : ∀ k, k < n → m.get (a + k) = BitVec.ofNat 8 (v / 2 ^ (8 * k))) :
    leValue (m.readBytes a n) = v % 256 ^ n := by
  have hbytes : m.readBytes a n = leBytes n v := by
    induction n generalizing a v with
    | zero => rfl
    | succ n ih =>
      rw [Memory.readBytes, leBytes]
      congr 1
      · simpa using h 0 (by omega)
      · refine ih fun k hk => ?_
        rw [show a + 1 + k = a + (k + 1) by omega, h (k + 1) (by omega), Nat.div_div_eq_div_mul]
        congr 2
        ring
  rw [hbytes, leValue_leBytes]

/-- Settles O17: the three answers of the two tests; where both pass, the value is the sum of the bytes. -/
theorem checkedReadPrimitive : Obligations.CheckedReadPrimitive := by
  unfold Obligations.CheckedReadPrimitive
  intro s sp a w
  refine ⟨fun hout => memRead_fault (accessFault_of_outOfBounds hout),
    fun hin hw hmis => memRead_fault (accessFault_of_misaligned hin hw hmis), fun hin hal => ?_⟩
  rw [memRead_ok (accessFault_of_legal hin hal), leValue_readBytes]

/-- A successful checked write puts byte k of the value at address a + k (R44). -/
theorem memWrite_get_inside {s : State} {sp : Space} {a : Addr} {w : Width} (hwf : (s.mem sp).wf = true)
    (h : s.accessFault sp a w = none) (v : Nat) {k : Nat} (hk : k < w.bytes) :
    ((s.memWrite sp a w v).mem sp).get (a.toNat + k) = BitVec.ofNat 8 (v / 2 ^ (8 * k)) := by
  have hfit := (accessFault_none h).1
  rw [memWrite_ok h, setMem_mem_same, Memory.get_writeBytes_inside hwf _ _ (by simpa using hfit) (by simpa using hk),
    getElem_leBytes]

/-- Settles O18: the three answers of the two tests; where both pass, the bytes inside and outside the access, and the frame. -/
theorem checkedWritePrimitive : Obligations.CheckedWritePrimitive := by
  unfold Obligations.CheckedWritePrimitive
  intro s sp a w v
  refine ⟨fun hout => memWrite_fault (accessFault_of_outOfBounds hout) v,
    fun hin hw hmis => memWrite_fault (accessFault_of_misaligned hin hw hmis) v, fun hwf hin hal => ?_⟩
  have hn := accessFault_of_legal hin hal
  refine ⟨fun k hk => memWrite_get_inside hwf hn v hk, fun a' ho => memWrite_get_outside hwf hn v ho,
    fun sp' hne => memWrite_mem_ne hne a w v s, ?_⟩
  rw [memWrite_ok hn]
  exact ⟨setMem_sameRegsPcCount _ _ s, setMem_halted _ _ s, setMem_haltCause _ _ s⟩

/-! ## Accesses inside a written word (R53) -/

/-- A byte of a word at a legal address is at the address plus its number, with no wrap: a memory has at most 2^32 bytes. -/
theorem toNat_add_of_inside {m : Memory} (hwf : m.wf = true) {a : Addr} {j : Nat} (h : a.toNat + j < m.size) :
    (a + BitVec.ofNat 32 j).toNat = a.toNat + j := by
  have := (Memory.wf_size hwf).2
  rw [BitVec.toNat_add, BitVec.toNat_ofNat]
  omega

/-- An aligned access inside a word that was written reads the part of the word at its offset (R53). -/
theorem memRead_inside_writeWord {s : State} {sp : Space} {a : Addr} (hwf : (s.mem sp).wf = true) (hal : a.toNat % 4 = 0)
    (hfit : a.toNat + 3 < (s.mem sp).size) (v : Word) {j : Nat} {w : Width} (hj : j + w.bytes ≤ 4)
    (hjal : (a.toNat + j) % w.bytes = 0) :
    ((writeWord sp a v s).memRead sp (a + BitVec.ofNat 32 j) w).1 = v.toNat / 2 ^ (8 * j) % 256 ^ w.bytes := by
  have hpos := w.bytes_pos
  have haddr := toNat_add_of_inside hwf (a := a) (j := j) (by omega)
  have hn : s.accessFault sp a .word = none := accessFault_eq_none hal hfit
  have hread : (writeWord sp a v s).accessFault sp (a + BitVec.ofNat 32 j) w = none := by
    refine accessFault_eq_none (by rwa [haddr]) ?_
    rw [haddr, writeWord, memWrite_mem_size]
    omega
  rw [memRead_ok hread, haddr]
  refine leValue_readBytes_of_bytes fun k hk => ?_
  have hjk : j + k < Width.word.bytes := by simp only [Width.bytes]; omega
  rw [writeWord, Nat.add_assoc, memWrite_get_inside hwf hn v.toNat hjk, Nat.div_div_eq_div_mul, ← pow_add, Nat.mul_add]

/-- A part of a word as a number. -/
theorem ofNat_div_mod_eq_extractLsb' (v : Word) (j n : Nat) :
    BitVec.ofNat (8 * n) (v.toNat / 2 ^ j % 256 ^ n) = v.extractLsb' j (8 * n) := by
  apply BitVec.eq_of_toNat_eq
  simp [pow_mul, Nat.shiftRight_eq_div_pow]

/-- Settles O20: each of the seven accesses is inside the word and aligned, and reads the word's part at its offset. -/
theorem mixedWidthView : Obligations.MixedWidthView := by
  unfold Obligations.MixedWidthView
  intro s sp a v hwf hal hfit
  refine ⟨?low, ?high, fun k hk => ?byte⟩
  case low =>
    have hread := memRead_inside_writeWord hwf hal hfit v (j := 0) (w := .half) (by decide) (by simp only [Width.bytes]; omega)
    rw [BitVec.add_zero] at hread
    rw [readHalfword, hread]
    exact ofNat_div_mod_eq_extractLsb' v 0 2
  case high =>
    have hread := memRead_inside_writeWord hwf hal hfit v (j := 2) (w := .half) (by decide) (by simp only [Width.bytes]; omega)
    rw [readHalfword]
    exact (congrArg (BitVec.ofNat 16) hread).trans (ofNat_div_mod_eq_extractLsb' v 16 2)
  case byte =>
    have hread := memRead_inside_writeWord hwf hal hfit v (j := k) (w := .byte) (by simp only [Width.bytes]; omega) (Nat.mod_one _)
    rw [readByte, hread]
    exact ofNat_div_mod_eq_extractLsb' v (8 * k) 1

/-! ## A fault on a machine that is halted already (R62) -/

/-- Halting changes nothing where the flag is set and a cause recorded (R27). -/
theorem halt_of_recorded {s : State} (hh : s.halted = true) (hc : s.haltCause ≠ .none) (c : HaltCause) : s.halt c = s := by
  rw [State.halt, if_neg hc, ← hh]

/-- Settles O21: the fault is raised on a state with the flag set and, by the invariant, a cause recorded. -/
theorem faultingAccessWhileHalted : Obligations.FaultingAccessWhileHalted := by
  unfold Obligations.FaultingAccessWhileHalted
  intro s sp a w v f hinv hh hf
  have hraise : s.raise f = s := halt_of_recorded hh (hinv.causeRecorded.mp hh) (.fault f)
  rw [memRead_fault hf, memWrite_fault hf, hraise]
  exact ⟨rfl, rfl⟩

/-! ## The loaders (R55, R56) -/

/-- A byte under no word that is written stays (R55). -/
theorem get_loadWordsFrom_outside {m : Memory} (hwf : m.wf = true) (a : Nat) (ws : List Word) {a' : Nat}
    (h : ∀ i, i < ws.length → a + 4 * i + 3 < m.size → a' < a + 4 * i ∨ a + 4 * i + 4 ≤ a') :
    (loadWordsFrom m a ws).get a' = m.get a' := by
  induction ws generalizing m a with
  | nil => rfl
  | cons w ws ih =>
    have later (i : Nat) (hi : i < ws.length) (hfit : a + 4 + 4 * i + 3 < m.size) :
        a' < a + 4 + 4 * i ∨ a + 4 + 4 * i + 4 ≤ a' := by
      have := h (i + 1) (by simpa using hi) (by omega)
      omega
    rw [loadWordsFrom]
    split
    · next hfit =>
      have firstWord := h 0 (by simp) (by omega)
      rw [ih (Memory.wf_writeBytes hwf _ _) _ (by simpa using later), Memory.get_writeBytes_outside hwf]
      simpa using firstWord
    · exact ih hwf _ later

/-- Each word that fits is at its place, little-endian (R55). -/
theorem get_loadWordsFrom_inside {m : Memory} (hwf : m.wf = true) (a : Nat) (ws : List Word) {i : Nat} {w : Word}
    (hw : ws[i]? = some w) (hfit : a + 4 * i + 3 < m.size) {k : Nat} (hk : k < 4) :
    (loadWordsFrom m a ws).get (a + 4 * i + k) = BitVec.ofNat 8 (w.toNat / 2 ^ (8 * k)) := by
  induction ws generalizing m a i with
  | nil => cases hw
  | cons x ws ih =>
    rw [loadWordsFrom, if_pos (by omega)]
    have hwf' := Memory.wf_writeBytes hwf a (leBytes 4 x.toNat)
    cases i with
    | zero =>
      obtain rfl : x = w := by simpa using hw
      rw [get_loadWordsFrom_outside hwf' _ _ fun i _ _ => by omega, Nat.mul_zero, Nat.add_zero,
        Memory.get_writeBytes_inside hwf _ _ (by simp; omega) (by simpa using hk), getElem_leBytes]
    | succ i =>
      rw [show a + 4 * (i + 1) + k = a + 4 + 4 * i + k by omega]
      exact ih hwf' _ (by simpa using hw) (by simp; omega)

/-- Settles O22: the bytes under and outside the words that fit, and the frame of a change of the instruction memory and the pc. -/
theorem bulkLoadWritesTheWords : Obligations.BulkLoadWritesTheWords := by
  unfold Obligations.BulkLoadWritesTheWords
  intro ws s hwf
  refine ⟨fun i w hw hfit k hk => ?inside, fun a ho => ?outside, rfl, fun _ => rfl, size_loadWordsFrom _ _ _, rfl, rfl, rfl, rfl⟩
  case inside =>
    have := get_loadWordsFrom_inside hwf 0 ws hw (by omega) hk
    rwa [Nat.zero_add] at this
  case outside =>
    refine get_loadWordsFrom_outside hwf 0 ws fun i hi hfit => ?_
    rw [Nat.zero_add] at hfit ⊢
    exact ho i hi hfit

/-- Settles O23: the loader's two answers; a loaded file's bytes are one run of written bytes from address 0 on. -/
theorem fileLoadWritesTheBytes : Obligations.FileLoadWritesTheBytes := by
  unfold Obligations.FileLoadWritesTheBytes
  intro bs s hwf
  rcases loadFile_cases bs s with ⟨hlong, h⟩ | ⟨hfit, hok, h⟩
  · exact ⟨fun _ => h, fun hfit => by omega⟩
  · have inside (j : Nat) (b : Byte) (hj : bs[j]? = some b) : (s.imem.writeBytes 0 bs).get j = b := by
      obtain ⟨hlt, hb⟩ := List.getElem?_eq_some_iff.mp hj
      have := Memory.get_writeBytes_inside hwf 0 bs (by omega) hlt
      rwa [Nat.zero_add, hb] at this
    have outside (a : Nat) (ha : bs.length ≤ a) : (s.imem.writeBytes 0 bs).get a = s.imem.get a :=
      Memory.get_writeBytes_outside hwf 0 bs (by omega)
    refine ⟨fun hlong => by omega, fun _ => ⟨hok, ?_⟩⟩
    rcases h with ⟨hc, h⟩ | ⟨hc, h⟩ <;> rw [h, hc] <;>
      exact ⟨inside, outside, rfl, fun _ => rfl, rfl, rfl, rfl, rfl⟩

/-! ## What is refused (R41, R57, R128) -/

/-- Settles O24: each refusal is one test, of the address, of the value's width, or of whether a machine exists. -/
theorem refusedHostOperations : Obligations.RefusedHostOperations := by
  unfold Obligations.RefusedHostOperations
  exact ⟨fun s sp a => ⟨fun h => if_pos h, fun h => if_neg (by omega)⟩,
    fun s sp a w v => ⟨fun h => if_pos h, fun h => if_neg (by omega)⟩, fun x l => ⟨rfl, rfl⟩⟩

end Sys2Proof.Machine
end

section
/-! PROOFS. What the engine may write (spec/40_alu_rtype.md R86), and what a step does in each of its cases
(spec/41_halt_and_sequencer.md R100, R101, R106; spec/60_exceptions.md R116). -/

namespace Sys2Proof.Machine

/-! ## The engine (R77, R86) -/

/-- All that the engine can do: raise a fault, or commit one result to the Decoded Instruction's destination (R83 to R86). -/
theorem executeDecoded_cases (d : DecodedInstr) (s : State) :
    (∃ r, d.toInstr = .error r ∧ executeDecoded d s = .next (s.raise (rejectFault r))) ∨
    (∃ op, d.toInstr = .ok (op.instr d) ∧
      executeDecoded d s = .next (s.commit d.rd (aluResult op (s.readReg d.rs1) (s.readReg d.rs2)))) := by
  by_cases ho : d.opcode = rTypeOpcode
  · cases hs : select d.funct3 d.funct7 with
    | none =>
      exact .inl ⟨.unknownFunction d.funct3 d.funct7, by simp [DecodedInstr.toInstr, ho, hs],
        executeDecoded_of_select_none ho hs s⟩
    | some op =>
      exact .inr ⟨op, by simp [DecodedInstr.toInstr, ho, hs], (executeDecoded_of_select ho hs s).trans (exec_instr op d s)⟩
  · exact .inl ⟨.unknownOpcode d.opcode, by simp [DecodedInstr.toInstr, ho], executeDecoded_unknownOpcode ho s⟩

/-- Settles O37: a raise changes the flag and the cause alone, a commit x[rd] and the pc alone. -/
theorem engineWritesOnlyItsOwn : Obligations.EngineWritesOnlyItsOwn := by
  unfold Obligations.EngineWritesOnlyItsOwn
  intro d s
  rcases executeDecoded_cases d s with ⟨r, _, h⟩ | ⟨op, _, h⟩
  · exact ⟨_, h, raise_imem _ s, raise_dmem _ s, raise_instructionCount _ s, fun r _ => raise_readReg _ s r,
      .inr ⟨raise_pc _ s, raise_halted _ s, raise_readReg _ s⟩⟩
  · exact ⟨_, h, commit_imem _ _ s, commit_dmem _ _ s, commit_instructionCount _ _ s, fun r hr => readReg_writeReg_ne hr _ s,
      .inl ⟨commit_pc _ _ s, commit_halted _ _ s, commit_haltCause _ _ s⟩⟩

/-- An instruction other than HALT commits to x0 as to any register: the write is discarded and the pc advances (R77). -/
theorem exec_of_rd_zero {i : Instr} (hi : i ≠ .halt) (hrd : i.decoded.rd = 0) (s : State) :
    exec i s = .next (s.setPc (s.pc + 4)) := by
  rcases exec_cases i s with ⟨h, _⟩ | ⟨_, v, h⟩
  · exact absurd h hi
  · rw [h, hrd]
    rfl

/-! ## A step of a running machine, case by case (R100, R116) -/

/-- A fetch that faults halts the machine with its fault, and nothing else happens (R98, R113). -/
theorem step_of_accessFault {s : State} {f : FaultInfo} (hh : s.halted = false) (hf : s.accessFault .imem s.pc .word = some f) :
    step s = .next (s.raise f) := by
  rcases fetch_cases s with ⟨f', hf', hfetch⟩ | ⟨hn, _⟩
  · obtain rfl : f = f' := Option.some.inj (hf.symm.trans hf')
    rw [step_of_running hh, hfetch, stepFetched_haltWord, exec_halt_raise]
  · cases hf.symm.trans hn

theorem step_of_haltWord {s : State} (hh : s.halted = false) (hf : s.fetchable = true) (hw : s.nextWord = haltWord) :
    step s = .next (s.halt .haltWord) := by
  rw [step_of_fetchable hh hf, hw, stepFetched_haltWord, exec_halt]

/-- A word that is no instruction raises its fault in the execute stage and is counted (R83, R84, R101). -/
theorem step_of_reject {s : State} {r : Reject} (hh : s.halted = false) (hf : s.fetchable = true)
    (hd : decode s.nextWord = .error r) : step s = .next (s.raise (rejectFault r)).countExecuted := by
  have hw : s.nextWord ≠ haltWord := fun hw => by rw [hw] at hd; cases hd
  rw [decode, if_neg hw] at hd
  rw [step_of_fetchable hh hf, stepFetched_of_ne_haltWord hw, executeDecoded_of_reject hd]
  rfl

/-- A word that is an instruction other than HALT is executed as it and counted (R100, R101). -/
theorem step_of_instr {s : State} {i : Instr} (hh : s.halted = false) (hf : s.fetchable = true)
    (hd : decode s.nextWord = .ok i) (hi : i ≠ .halt) : step s = countAfter (exec i s) := by
  have hw : s.nextWord ≠ haltWord := fun hw => hi ((decode_ne_halt_iff _ i hd).mpr hw)
  rw [decode, if_neg hw] at hd
  rw [step_of_fetchable hh hf, stepFetched_of_ne_haltWord hw, executeDecoded, hd]

/-- Settles O40: HALT is the halt word's instruction, and every other one goes through the engine and the count. -/
theorem stepRunsTheDecodedInstruction : Obligations.StepRunsTheDecodedInstruction := by
  unfold Obligations.StepRunsTheDecodedInstruction
  intro s i hh hf hd _
  split
  · next hi => rw [step_of_haltWord hh hf ((decode_ne_halt_iff _ i hd).mp hi), hi, exec_halt]
  · next hi => exact step_of_instr hh hf hd hi

/-- Settles O38: what a step of the instruction does is what the engine does with it, counted. -/
theorem writeToX0OnlyAdvancesThePc : Obligations.WriteToX0OnlyAdvancesThePc := by
  unfold Obligations.WriteToX0OnlyAdvancesThePc
  intro i s hi hrd
  have hexec := exec_of_rd_zero hi hrd s
  exact ⟨hexec, fun hh hf hd => by rw [step_of_instr hh hf hd hi, hexec]; rfl⟩

/-- Settles O52: a step's state has one of four shapes, each of them a next state. -/
theorem everyStepAnswersANextState : Obligations.EveryStepAnswersANextState :=
  fun s => (step_shape s).imp fun _ h => h.1

/-- Settles O14: set_pc changes the pc alone; the next fetch's two tests are of the new pc. -/
theorem setPcIsUnchecked : Obligations.SetPcIsUnchecked := by
  unfold Obligations.SetPcIsUnchecked
  intro v s
  refine ⟨rfl, fun _ => rfl, rfl, rfl, rfl, rfl, rfl, fun hh hc hout => ?_, fun hh hc hin hmis => ?_⟩
  · exact ⟨_, step_of_accessFault hh (accessFault_of_outOfBounds hout), raise_halted _ _, raise_haltCause_first hc _⟩
  · exact ⟨_, step_of_accessFault hh (accessFault_of_misaligned hin (by decide) hmis), raise_halted _ _,
      raise_haltCause_first hc _⟩

/-! ## The stages of a step (R116) -/

/-- In a state with the invariant the check of `run` changes nothing on a halted machine, whose cause is recorded (R103). -/
theorem pcCheck_of_halted {s : State} (hinv : s.Inv) (hh : s.halted = true) : s.pcCheck = s := by
  unfold State.pcCheck
  split
  · exact halt_of_recorded hh (hinv.causeRecorded.mp hh) _
  · rfl

/-- Every step keeps the invariant: each shape of its next state does. -/
theorem step_inv {s t : State} (hinv : s.Inv) (h : step s = .next t) : t.Inv := by
  obtain ⟨u, hu, shape⟩ := step_shape s
  cases hu.symm.trans h
  rcases shape with rfl | ⟨c, hc, rfl⟩ | ⟨f, rfl⟩ | ⟨rd, v, rfl⟩
  · exact hinv
  · exact hinv.halt hc
  · exact (hinv.raise f).countExecuted
  · exact (hinv.commit rd v).countExecuted

/-- Settles O42: the two tests of the fetch, the halt test, the engine's two tests, then the commit; and the check of `run` finds the
cause of a step that halted recorded. -/
theorem stepStagesInOrder : Obligations.StepStagesInOrder := by
  unfold Obligations.StepStagesInOrder
  intro s
  refine ⟨step_of_halted, fun hh hout => step_of_accessFault hh (accessFault_of_outOfBounds hout),
    fun hh hin hmis => step_of_accessFault hh (accessFault_of_misaligned hin (by decide) hmis), step_of_haltWord,
    fun hh hf hw ho => step_of_reject hh hf (decode_of_unknownOpcode hw ho), fun hh hf ho h3 h7 h7' => ?unlisted,
    fun hh hf ho hlisted => ?commits, fun hinv t h ht => ?check⟩
  case unlisted =>
    exact step_of_reject hh hf (decode_of_unknownFunction ho ((select_eq_none_iff _ _).mpr ⟨h3, h7, h7'⟩))
  case commits =>
    obtain ⟨op, hs⟩ := Option.ne_none_iff_exists'.mp (mt (select_eq_none_iff _ _).mp hlisted)
    obtain ⟨i, hd, hi, hrd⟩ := decode_of_select ho hs
    rcases exec_cases i s with ⟨hi', _⟩ | ⟨_, v, he⟩
    · exact absurd hi' hi
    · exact ⟨v, by rw [step_of_instr hh hf hd hi, he, hrd]; rfl⟩
  case check =>
    rw [runIteration_of_step h, pcCheck_of_halted (step_inv hinv h) ht]

/-! ## What every step keeps and counts -/

/-- A fetch that faults is of a pc that is not fetchable (R22). -/
theorem not_fetchable_of_accessFault {s : State} {f : FaultInfo} (h : s.accessFault .imem s.pc .word = some f) :
    s.fetchable = false := by
  rw [← Bool.not_eq_true, fetchable_iff, h]
  nofun

/-- Settles O43: of the five cases of a step the two that reach execute are the two that count. -/
theorem counterCountsExecutedSteps : Obligations.CounterCountsExecutedSteps := by
  unfold Obligations.CounterCountsExecutedSteps
  intro s t h
  have counted : (s.instructionCount + 1#64).toNat = (s.instructionCount.toNat + 1) % 2 ^ 64 := BitVec.toNat_add _ _
  refine ⟨?_, pcCheck_instructionCount t⟩
  rcases step_cases s with ⟨hh, e⟩ | ⟨_, f, hf, e⟩ | ⟨_, _, hw, e⟩ | ⟨hh, hf, r, hd, e⟩ | ⟨hh, hf, i, v, hd, hi, _, e⟩ <;>
    cases e.symm.trans h
  · simp [hh]
  · simp [not_fetchable_of_accessFault hf]
  · rw [if_neg fun ⟨_, _, hw'⟩ => hw' hw]
    rfl
  · have hw : s.nextWord ≠ 0 := fun hw => by rw [hw] at hd; cases hd
    rw [if_pos ⟨hh, hf, hw⟩]
    exact counted
  · have hw : s.nextWord ≠ 0 := fun hw => hi ((decode_ne_halt_iff _ i hd).mpr hw)
    rw [if_pos ⟨hh, hf, hw⟩, countExecuted_instructionCount, commit_instructionCount]
    exact counted

/-- Settles O44: the case of a step that commits goes on, and each of the others halts. -/
theorem pcAdvancesOrTheMachineHalts : Obligations.PcAdvancesOrTheMachineHalts := by
  unfold Obligations.PcAdvancesOrTheMachineHalts
  intro s t hrun h
  rcases step_cases s with ⟨hh, _⟩ | ⟨_, f, _, e⟩ | ⟨_, _, _, e⟩ | ⟨_, _, r, _, e⟩ | ⟨_, _, i, v, _, _, _, e⟩
  · rw [hrun] at hh
    cases hh
  all_goals cases e.symm.trans h
  · exact .inr ⟨rfl, rfl, fun _ => rfl, rfl, rfl⟩
  · exact .inr ⟨rfl, rfl, fun _ => rfl, rfl, rfl⟩
  · exact .inr ⟨rfl, rfl, fun _ => rfl, rfl, rfl⟩
  · exact .inl ⟨by simpa using hrun, rfl⟩

/-- Settles O45: a step leaves the pc or advances it by 4, and 2^32 is a multiple of 4. -/
theorem stepKeepsThePcAligned : Obligations.StepKeepsThePcAligned := by
  unfold Obligations.StepKeepsThePcAligned
  intro s t hal h
  cases hh : s.halted with
  | true =>
    cases (step_of_halted hh).symm.trans h
    exact hal
  | false =>
    rcases pcAdvancesOrTheMachineHalts s t hh h with ⟨_, hpc⟩ | ⟨_, hpc, _⟩
    · rw [hpc]
      bv_omega
    · rwa [hpc]

/-! ## What a fetch sees (R51, R60) -/

/-- The word a fetch delivers is a function of the pc and the instruction memory. -/
theorem fetch_fst_congr {s t : State} (hpc : t.pc = s.pc) (hm : t.imem = s.imem) : t.fetch.1 = s.fetch.1 := by
  have hfault : t.accessFault .imem t.pc .word = s.accessFault .imem s.pc .word := by
    rw [hpc, accessFault_congr (s := s) (by rw [mem_imem, mem_imem, hm])]
  rcases fetch_cases s with ⟨f, hf, hs⟩ | ⟨hn, hs⟩ <;> rcases fetch_cases t with ⟨g, hg, ht⟩ | ⟨hm', ht⟩
  · rw [hs, ht]
  · rw [hfault, hf] at hm'; cases hm'
  · rw [hfault, hn] at hg; cases hg
  · rw [hs, ht, State.nextWord, State.nextWord, hpc, hm]

/-- An aligned pc whose word is inside the memory is fetchable, and only such a one (R22). -/
theorem fetchable_iff_aligned_inside (s : State) :
    s.fetchable = true ↔ s.pc.toNat % 4 = 0 ∧ s.pc.toNat + 3 < s.imem.size := by
  simp [State.fetchable]

/-- Settles O25: a fetch is the checked word read at the pc, which a host's write there or a load of its word determines. -/
theorem fetchSeesHostWritesOnly : Obligations.FetchSeesHostWritesOnly := by
  unfold Obligations.FetchSeesHostWritesOnly
  intro s
  refine ⟨fun t h => ⟨step_mem h .imem, step_mem h .dmem⟩, fun hf => ?value, fun hwf hf v => ?write, fun hwf hsize v ws => ?load,
    fun a w v => ?dmem⟩
  case value =>
    have hlt := Memory.leValue_readBytes_lt s.imem s.pc.toNat 4
    rw [fetch_ok hf, ← leValue_readBytes]
    exact Nat.mod_eq_of_lt hlt
  case write =>
    obtain ⟨hal, hfit⟩ := (fetchable_iff_aligned_inside s).mp hf
    obtain ⟨hword, _⟩ := readAfterWriteGivesTheValue s .imem s.pc hwf
    have hread := congrArg Prod.fst (hword v hal hfit)
    have hpc : (writeWord .imem s.pc v s).pc = s.pc := by
      rw [writeWord, memWrite_ok ((fetchable_iff s).mp hf), setMem_pc]
    rw [State.fetch, hpc]
    exact hread
  case load =>
    have hf : (loadProgram (v :: ws) s).fetchable = true := by
      rw [fetchable_iff_aligned_inside, loadProgram_imem, size_loadWordsFrom]
      exact ⟨rfl, by simpa [loadProgram] using hsize⟩
    have hbytes (k : Nat) (hk : k < 4) :
        (loadProgram (v :: ws) s).imem.get (0 + k) = BitVec.ofNat 8 (v.toNat / 2 ^ (8 * k)) :=
      get_loadWordsFrom_inside hwf 0 (v :: ws) (i := 0) rfl hsize hk
    rw [fetch_ok hf]
    exact (congrArg (BitVec.ofNat 32) (leValue_readBytes_of_bytes hbytes)).trans (ofNat_toNat_mod_pow 4 v)
  case dmem =>
    refine fetch_fst_congr ?_ (memWrite_mem_ne (sp := .dmem) (sp' := .imem) (by decide) a w v s)
    cases hfault : s.accessFault .dmem a w with
    | some f => rw [memWrite_fault hfault, raise_pc]
    | none => rw [memWrite_ok hfault, setMem_pc]

end Sys2Proof.Machine
end

section
/-! PROOFS. The loop of `run`: its check, its end and its states (spec/41_halt_and_sequencer.md R102 to R108). -/

namespace Sys2Proof.Machine

/-! ## The check of `run` (R103) -/

theorem pcCheck_of_below {s : State} (h : s.pc.toNat < s.imem.size) : s.pcCheck = s := if_neg (by omega)

theorem pcCheck_of_outside {s : State} (h : s.imem.size ≤ s.pc.toNat) : s.pcCheck = s.halt .pcOutOfRange := if_pos h

/-- The check never clears the flag. -/
theorem pcCheck_keeps_halted {s : State} (h : s.halted = true) : s.pcCheck.halted = true := by
  unfold State.pcCheck
  split
  · rfl
  · exact h

/-- Settles O46: the check is a halt at or above IMEM_SIZE and nothing below. -/
theorem runChecksThePcAfterAStep : Obligations.RunChecksThePcAfterAStep := by
  unfold Obligations.RunChecksThePcAfterAStep
  intro s t h
  refine ⟨_, runIteration_of_step h, ⟨pcCheck_readReg t, pcCheck_pc t, pcCheck_instructionCount t⟩, pcCheck_imem t, pcCheck_dmem t,
    fun hout => ?_, pcCheck_of_below⟩
  rw [pcCheck_of_outside hout]
  exact ⟨halt_halted _ t, halt_haltCause _ t⟩

/-- Settles O49: at the end of instruction memory the check halts where the next fetch of a step alone is out of bounds. -/
theorem stepAloneAndRunDifferOnlyAtTheEnd : Obligations.StepAloneAndRunDifferOnlyAtTheEnd := by
  unfold Obligations.StepAloneAndRunDifferOnlyAtTheEnd
  intro s t hinv _ h
  have hiter := runIteration_of_step h
  have hinv' := step_inv hinv h
  refine ⟨fun hgood => ?_, fun hh hout => ?_⟩
  · rw [hiter]
    rcases hgood with hh | hin
    · rw [pcCheck_of_halted hinv' hh]
    · rw [pcCheck_of_below hin]
  · have hc : t.haltCause = .none := by
      by_contra hc
      rw [hinv'.causeRecorded.mpr hc] at hh
      cases hh
    have hstep := step_of_accessFault hh (accessFault_of_outOfBounds (w := .word) (hout.trans (Nat.le_add_right t.pc.toNat 3)))
    rw [pcCheck_of_outside hout] at hiter
    exact ⟨_, _, hiter, rfl, if_pos hc, hstep, rfl, raise_haltCause_first hc _, fun _ => rfl, rfl, rfl⟩

/-! ## The iterations of `run` (R102) -/

/-- `run` on a running machine goes on after an iteration as from the state the iteration answers. -/
theorem runWithin_succ {s t : State} (hh : s.halted = false) (h : runIteration s = .next t) (k : Nat) :
    runWithin (k + 1) s = runWithin k t := by
  rw [runWithin, hh, h]
  rfl

theorem runWithin_zero_of_running {s : State} (hh : s.halted = false) : runWithin 0 s = none := by
  rw [runWithin, hh]
  rfl

/-- Every iteration of `run` answers a next state. -/
theorem runIteration_next (s : State) : ∃ t, runIteration s = .next t := by
  obtain ⟨t, ht, _⟩ := step_shape s
  exact ⟨_, runIteration_of_step ht⟩

/-- Settles O50: by induction on the number of iterations; a halted state is returned at once, whatever the number. -/
theorem runReturnsHalted : Obligations.RunReturnsHalted := by
  unfold Obligations.RunReturnsHalted
  intro k
  induction k with
  | zero =>
    intro s t h
    cases hh : s.halted with
    | false => rw [runWithin_zero_of_running hh] at h; cases h
    | true =>
      cases (runWithin_of_halted hh 0).symm.trans h
      exact ⟨hh, fun j _ => runWithin_of_halted hh j⟩
  | succ k ih =>
    intro s t h
    cases hh : s.halted with
    | true =>
      cases (runWithin_of_halted hh (k + 1)).symm.trans h
      exact ⟨hh, fun j _ => runWithin_of_halted hh j⟩
    | false =>
      obtain ⟨u, hu⟩ := runIteration_next s
      rw [runWithin_succ hh hu] at h
      obtain ⟨ht, hmore⟩ := ih u t h
      refine ⟨ht, fun j hj => ?_⟩
      obtain ⟨j, rfl⟩ : ∃ j', j = j' + 1 := ⟨j - 1, by omega⟩
      rw [runWithin_succ hh hu, hmore j (by omega)]

/-! ## `run` ends below the full address space (R105) -/

/-- All that an iteration of `run` can do on a running machine: halt without executing; execute, at a fetchable pc, and halt; or
execute and go on, with the pc advanced by 4 and still inside the instruction memory. -/
theorem runIteration_cases {s : State} (hh : s.halted = false) :
    ∃ t, runIteration s = .next t ∧
      ((t.halted = true ∧ t.instructionCount = s.instructionCount) ∨
        (s.fetchable = true ∧ t.instructionCount = s.instructionCount + 1#64 ∧
          (t.halted = true ∨ (t.pc = s.pc + 4#32 ∧ t.pc.toNat < t.imem.size ∧ t.imem = s.imem)))) := by
  rcases step_cases s with ⟨hh', _⟩ | ⟨_, f, _, e⟩ | ⟨_, _, _, e⟩ | ⟨_, hf, r, _, e⟩ | ⟨_, hf, i, v, _, _, _, e⟩
  · rw [hh] at hh'
    cases hh'
  all_goals refine ⟨_, runIteration_of_step e, ?_⟩
  · exact .inl ⟨pcCheck_keeps_halted rfl, pcCheck_instructionCount _⟩
  · exact .inl ⟨pcCheck_keeps_halted rfl, pcCheck_instructionCount _⟩
  · exact .inr ⟨hf, pcCheck_instructionCount _, .inl (pcCheck_keeps_halted rfl)⟩
  · refine .inr ⟨hf, by simp, ?_⟩
    by_cases hin : (s.commit i.decoded.rd v).countExecuted.pc.toNat < (s.commit i.decoded.rd v).countExecuted.imem.size
    · rw [pcCheck_of_below hin]
      exact .inr ⟨rfl, hin, by simp⟩
    · rw [pcCheck_of_outside (by omega)]
      exact .inl rfl

/-- `run` from s returns within k + 1 iterations and executes at most k instructions (R105). -/
def EndsWithin (k : Nat) (s : State) : Prop :=
  ∃ t n, runWithin (k + 1) s = some t ∧ t.halted = true ∧ n ≤ k ∧ t.instructionCount = s.instructionCount + BitVec.ofNat 64 n

theorem EndsWithin.of_halted {s : State} (hh : s.halted = true) (k : Nat) : EndsWithin k s :=
  ⟨s, 0, runWithin_of_halted hh (k + 1), hh, Nat.zero_le k, (BitVec.add_zero _).symm⟩

/-- An iteration that executes no instruction and halts. -/
theorem EndsWithin.of_halts {s t : State} (hh : s.halted = false) (h : runIteration s = .next t) (ht : t.halted = true)
    (hcount : t.instructionCount = s.instructionCount) (k : Nat) : EndsWithin k s :=
  ⟨t, 0, (runWithin_succ hh h k).trans (runWithin_of_halted ht k), ht, Nat.zero_le k, by simpa using hcount⟩

/-- An iteration that executes one instruction adds one iteration and one instruction. -/
theorem EndsWithin.of_executes {s t : State} (hh : s.halted = false) (h : runIteration s = .next t)
    (hcount : t.instructionCount = s.instructionCount + 1#64) {k : Nat} (ht : EndsWithin k t) : EndsWithin (k + 1) s := by
  obtain ⟨u, n, hu, huh, hn, hc⟩ := ht
  refine ⟨u, n + 1, (runWithin_succ hh h (k + 1)).trans hu, huh, by omega, ?_⟩
  rw [hc, hcount, BitVec.ofNat_add, BitVec.add_assoc, BitVec.add_comm 1#64]

/-- With at most 4k + 3 bytes of instruction memory from the pc on, `run` executes at most k instructions: each takes the pc 4 bytes
on, and below the full address space it does not wrap (R105). -/
theorem endsWithin_of_distance (k : Nat) {s : State} (hsize : s.imem.size < 2 ^ 32) (hdist : s.imem.size ≤ s.pc.toNat + 4 * k + 3) :
    EndsWithin k s := by
  induction k generalizing s with
  | zero =>
    cases hh : s.halted with
    | true => exact .of_halted hh 0
    | false =>
      obtain ⟨t, hiter, ⟨ht, hcount⟩ | ⟨hf, _⟩⟩ := runIteration_cases hh
      · exact .of_halts hh hiter ht hcount 0
      · have := ((fetchable_iff_aligned_inside s).mp hf).2
        omega
  | succ k ih =>
    cases hh : s.halted with
    | true => exact .of_halted hh (k + 1)
    | false =>
      obtain ⟨t, hiter, ⟨ht, hcount⟩ | ⟨hf, hcount, ht | ⟨hpc, hin, hm⟩⟩⟩ := runIteration_cases hh
      · exact .of_halts hh hiter ht hcount (k + 1)
      · exact .of_executes hh hiter hcount (.of_halted ht k)
      · refine .of_executes hh hiter hcount (ih (by rwa [hm]) ?_)
        have := ((fetchable_iff_aligned_inside s).mp hf).2
        have noWrap : t.pc.toNat = s.pc.toNat + 4 := by rw [hpc]; bv_omega
        rw [hm, noWrap]
        omega

/-- Settles O47: from any pc at most IMEM_SIZE bytes are left, fewer than IMEM_SIZE / 4 words and one more. -/
theorem runEndsBelowTheFullSpace : Obligations.RunEndsBelowTheFullSpace :=
  fun s hsize => endsWithin_of_distance (s.imem.size / 4) hsize (by omega)

/-! ## `run` need not end in the full address space (R105, I13) -/

/-- A running machine at an aligned pc, with the full address space filled with the word 0x00000033, which is `add x0, x0, x0`. -/
structure FullOfAdds (s : State) : Prop where
  size : s.imem.size = 2 ^ 32
  running : s.halted = false
  aligned : s.pc.toNat % 4 = 0
  filled : ∀ a, a < 2 ^ 32 → s.imem.get a = if a % 4 = 0 then 0x33#8 else 0x00#8

theorem FullOfAdds.fetchable {s : State} (h : FullOfAdds s) : s.fetchable = true := by
  have hpc := s.pc.isLt
  have hal := h.aligned
  rw [fetchable_iff_aligned_inside, h.size]
  omega

/-- The word at the pc is 0x00000033: its byte 0 is at the pc, which is aligned, and its other three bytes are 0 (R42). -/
theorem FullOfAdds.nextWord {s : State} (h : FullOfAdds s) : s.nextWord = 0x00000033#32 := by
  obtain ⟨hal, hin⟩ := (fetchable_iff_aligned_inside s).mp h.fetchable
  have hbytes (k : Nat) (hk : k < 4) : s.imem.get (s.pc.toNat + k) = BitVec.ofNat 8 (0x33 / 2 ^ (8 * k)) := by
    rw [h.filled _ (by have := h.size; omega)]
    interval_cases k
    · rw [if_pos (by omega)]; rfl
    all_goals rw [if_neg (by omega)]; rfl
  rw [State.nextWord, leValue_readBytes_of_bytes hbytes]
  rfl

/-- An iteration of `run` advances the pc, past the end of the address space to 0, and stays in the class (D9). -/
theorem FullOfAdds.runIteration {s : State} (h : FullOfAdds s) : ∃ t, Machine.runIteration s = .next t ∧ FullOfAdds t := by
  have hd : decode s.nextWord = .ok (.add 0 0 0) := by
    rw [h.nextWord]
    exact decodeOfEncodeIsTheInstruction (.add 0 0 0) rfl
  have hstep : step s = .next (s.setPc (s.pc + 4)).countExecuted :=
    (writeToX0OnlyAdvancesThePc (.add 0 0 0) s nofun rfl).2 h.running h.fetchable hd
  have hnext : FullOfAdds (s.setPc (s.pc + 4)).countExecuted :=
    ⟨h.size, h.running, stepKeepsThePcAligned _ _ h.aligned hstep, h.filled⟩
  refine ⟨_, runIteration_of_step hstep, ?_⟩
  rwa [pcCheck_of_below (by rw [hnext.size]; exact BitVec.isLt _)]

/-- Settles O48: every iteration stays in a class of running states, by induction on the number of iterations. -/
theorem runNeedNotEndInTheFullSpace : Obligations.RunNeedNotEndInTheFullSpace := by
  unfold Obligations.RunNeedNotEndInTheFullSpace
  intro s hsize hrun hal hfill k
  have h : FullOfAdds s := ⟨hsize, hrun, hal, hfill⟩
  clear hsize hrun hal hfill
  induction k generalizing s with
  | zero => exact runWithin_zero_of_running h.running
  | succ k ih =>
    obtain ⟨t, hiter, ht⟩ := h.runIteration
    rw [runWithin_succ h.running hiter, ih t ht]

end Sys2Proof.Machine
end

section
/-! PROOFS. What the transactions keep: the invariant, the recorded cause and the flag; reset and construction
(spec/10_state.md sections 4 and 7, spec/70_reset_and_hazards.md section 1). -/

namespace Sys2Proof.Machine

/-! ## The invariant -/

/-- Settles O58: each shape of a step's next state keeps the invariant. -/
theorem stepKeepsTheInvariant : Obligations.StepKeepsTheInvariant := fun _ _ => step_inv

theorem State.Inv.setRegister {s : State} (h : s.Inv) (index : Int) (v : Word) : (setRegister index v s).2.Inv := by
  rcases setRegister_cases index v s with ⟨_, e⟩ | ⟨_, e⟩ <;> rw [e]
  · exact h.writeReg _ v
  · exact h

theorem State.Inv.loadProgram {s : State} (h : s.Inv) (ws : List Word) : (loadProgram ws s).Inv :=
  (h.setMem .imem (wf_loadWordsFrom h.imemWf 0 ws)).setPc 0#32

theorem State.Inv.loadFile {s : State} (h : s.Inv) (bs : List Byte) : (loadFile bs s).2.Inv := by
  have written := h.setMem .imem (Memory.wf_writeBytes h.imemWf 0 bs)
  rcases loadFile_cases bs s with ⟨_, e⟩ | ⟨_, _, ⟨_, e⟩ | ⟨_, e⟩⟩ <;> rw [e]
  · exact h
  · exact written.setPc 0#32
  · exact written

/-- Every transaction keeps the invariant. -/
theorem transact_inv {x : Transaction} {s t : State} (hinv : s.Inv) (h : transact x s = .next t) : t.Inv := by
  rcases transact_cases h with ⟨_, hstep⟩ | ⟨_, ⟨_, rfl⟩ | ⟨_, u, hstep, rfl⟩⟩ | ⟨_, rfl⟩ | ⟨v, _, rfl⟩ |
    ⟨index, v, _, rfl⟩ | ⟨sp, a, w, _, rfl⟩ | ⟨sp, a, w, v, _, _, rfl⟩ | ⟨ws, _, rfl⟩ | ⟨bs, _, rfl⟩
  · exact step_inv hinv hstep
  · exact hinv
  · exact (step_inv hinv hstep).pcCheck
  · exact hinv.hostReset
  · exact hinv.setPc v
  · exact hinv.setRegister index v
  · exact hinv.memRead sp a w
  · exact hinv.memWrite sp a w v
  · exact hinv.loadProgram ws
  · exact hinv.loadFile bs

/-- Settles O59: by induction on the run of transactions. -/
theorem transactionsKeepTheInvariant : Obligations.TransactionsKeepTheInvariant := by
  unfold Obligations.TransactionsKeepTheInvariant
  intro s t hinv hreach
  induction hreach with
  | refl => exact hinv
  | tail x _ h ih => exact transact_inv ih h

/-- Settles O57: no cell is listed in either memory, and no cause is recorded. -/
theorem invariantHoldsAtReset : Obligations.InvariantHoldsAtReset :=
  ⟨by decide, by decide, by decide⟩

/-! ## The flag and the first cause (R27) -/

/-- From s to t a halt is kept: the flag is not cleared, and a recorded cause stays. -/
def KeepsHalt (s t : State) : Prop :=
  (s.halted = true → t.halted = true) ∧ (s.haltCause ≠ .none → t.haltCause = s.haltCause)

theorem KeepsHalt.of_eq {s t : State} (hh : t.halted = s.halted) (hc : t.haltCause = s.haltCause) : KeepsHalt s t :=
  ⟨hh.trans, fun _ => hc⟩

theorem KeepsHalt.refl (s : State) : KeepsHalt s s := .of_eq rfl rfl

theorem KeepsHalt.halt (c : HaltCause) (s : State) : KeepsHalt s (s.halt c) := ⟨fun _ => rfl, fun hc => if_neg hc⟩

theorem KeepsHalt.pcCheck {s t : State} (h : KeepsHalt s t) : KeepsHalt s t.pcCheck := by
  unfold State.pcCheck
  split
  · exact ⟨fun _ => rfl, fun hc => by rw [halt_haltCause, h.2 hc, if_neg hc]⟩
  · exact h

theorem KeepsHalt.step {s t : State} (h : step s = .next t) : KeepsHalt s t := by
  obtain ⟨u, hu, shape⟩ := step_shape s
  cases hu.symm.trans h
  rcases shape with rfl | ⟨c, _, rfl⟩ | ⟨f, rfl⟩ | ⟨rd, v, rfl⟩
  · exact .refl _
  · exact .halt c s
  · exact .halt (.fault f) s
  · exact .of_eq (commit_halted rd v s) (commit_haltCause rd v s)

/-- Every transaction but reset keeps a halt. -/
theorem KeepsHalt.transact {x : Transaction} {s t : State} (hx : x ≠ .reset) (h : transact x s = .next t) : KeepsHalt s t := by
  rcases transact_cases h with ⟨_, hstep⟩ | ⟨_, ⟨_, rfl⟩ | ⟨_, u, hstep, rfl⟩⟩ | ⟨rfl, _⟩ | ⟨v, _, rfl⟩ |
    ⟨index, v, _, rfl⟩ | ⟨sp, a, w, _, rfl⟩ | ⟨sp, a, w, v, _, _, rfl⟩ | ⟨ws, _, rfl⟩ | ⟨bs, _, rfl⟩
  · exact .step hstep
  · exact .refl _
  · exact (KeepsHalt.step hstep).pcCheck
  · exact absurd rfl hx
  · exact .refl _
  · rcases setRegister_cases index v s with ⟨_, e⟩ | ⟨_, e⟩ <;> rw [e]
    · exact .of_eq (writeReg_halted _ v s) (writeReg_haltCause _ v s)
    · exact .refl s
  · cases hf : s.accessFault sp a w with
    | some f => rw [memRead_fault hf]; exact .halt (.fault f) s
    | none => rw [memRead_ok hf]; exact .refl s
  · cases hf : s.accessFault sp a w with
    | some f => rw [memWrite_fault hf]; exact .halt (.fault f) s
    | none => rw [memWrite_ok hf]; exact .of_eq (setMem_halted _ _ s) (setMem_haltCause _ _ s)
  · exact .of_eq rfl rfl
  · rcases loadFile_cases bs s with ⟨_, e⟩ | ⟨_, _, ⟨_, e⟩ | ⟨_, e⟩⟩ <;> rw [e] <;> exact .of_eq rfl rfl

/-- Settles O53: a halt is kept, its cause with it; the codes are the enumeration's. -/
theorem firstHaltCauseIsKept : Obligations.FirstHaltCauseIsKept :=
  ⟨fun _ _ _ hx h => (KeepsHalt.transact hx h).2, rfl, rfl, rfl, fun _ _ _ => ⟨rfl, rfl⟩, fun _ => rfl, fun _ _ => rfl⟩

/-! ## Reset and construction (R32, R126, R127) -/

/-- Settles O54: the values of reset, field by field; any other transaction keeps the flag. -/
theorem resetClearsAllButMemory : Obligations.ResetClearsAllButMemory := by
  unfold Obligations.ResetClearsAllButMemory
  refine fun s => ⟨⟨s.hostReset, rfl, hostReset_readReg s, rfl, rfl, rfl, rfl, rfl, rfl⟩, fun x t h hs ht => ?_⟩
  by_contra hx
  rw [(KeepsHalt.transact hx h).1 hs] at ht
  cases ht

/-- Where every register's storage is 0 every register reads 0. -/
theorem readReg_of_regs_zero {s : State} (h : s.regs = Vector.replicate 32 0#32) (r : RegIdx) : s.readReg r = 0 := by
  unfold State.readReg
  simp [h]

/-- Settles O55: by the values that State.reset is written with. -/
theorem resetStateHasTheSpecsValues : Obligations.ResetStateHasTheSpecsValues :=
  ⟨readReg_of_regs_zero rfl, rfl, rfl, rfl, rfl⟩

theorem legalSize_iff (n : Nat) : legalSize n = true ↔ 1 ≤ n ∧ n ≤ 2 ^ 32 := decide_eq_true_iff

theorem constructed_inv {isz dsz : Nat} (hi : 1 ≤ isz ∧ isz ≤ 2 ^ 32) (hd : 1 ≤ dsz ∧ dsz ≤ 2 ^ 32) (fi fd : Nat → Byte) :
    (constructed isz dsz fi fd).Inv :=
  ⟨Memory.wf_ofContents hi.1 hi.2 fi, Memory.wf_ofContents hd.1 hd.2 fd, by simp [constructed]⟩

/-- Settles O56: the two tests of construction, and the memories of the given contents. -/
theorem constructionMakesTheGivenMachine : Obligations.ConstructionMakesTheGivenMachine := by
  unfold Obligations.ConstructionMakesTheGivenMachine
  intro allocates isz dsz fi fd
  have sizes : (legalSize isz && legalSize dsz) = true ↔ 1 ≤ isz ∧ isz ≤ 2 ^ 32 ∧ 1 ≤ dsz ∧ dsz ≤ 2 ^ 32 := by
    rw [Bool.and_eq_true, legalSize_iff, legalSize_iff, and_assoc]
  refine ⟨fun hill => ?_, fun i1 i2 d1 d2 ha => ?_, fun i1 i2 d1 d2 ha => ⟨constructed isz dsz fi fd, ?_,
    constructed_inv ⟨i1, i2⟩ ⟨d1, d2⟩ fi fd, rfl, rfl, fun _ => Memory.get_ofContents isz fi, fun _ => Memory.get_ofContents dsz fd,
    readReg_of_regs_zero rfl, rfl, rfl, rfl, rfl⟩⟩
  · simp [initMachine, mt sizes.mp hill]
  · simp [initMachine, sizes.mpr ⟨i1, i2, d1, d2⟩, ha]
  · simp [initMachine, sizes.mpr ⟨i1, i2, d1, d2⟩, ha]

end Sys2Proof.Machine
end

section
/-! PROOFS. What a run cannot observe: the storage cell of x0 (spec/10_state.md R15) and, but for the host, the data memory
(spec/20_memory.md R39). -/

namespace Sys2Proof.Machine

/-! ## Changes of a state that no step reads or writes -/

/-- A change of the state that the controller neither reads nor writes: it leaves what a step reads, and the updates that a step is
made of (step_shape) can be made before or after it. The two changes used are stepBlind_setMem_dmem and stepBlind_withCell. -/
structure StepBlind (g : State → State) : Prop where
  readReg : ∀ s r, (g s).readReg r = s.readReg r
  pc : ∀ s, (g s).pc = s.pc
  imem : ∀ s, (g s).imem = s.imem
  halted : ∀ s, (g s).halted = s.halted
  halt : ∀ c s, (g s).halt c = g (s.halt c)
  commit : ∀ rd v s, (g s).commit rd v = g (s.commit rd v)
  countExecuted : ∀ s, (g s).countExecuted = g s.countExecuted

namespace StepBlind

variable {g : State → State}

theorem accessFault (hg : StepBlind g) (s : State) : (g s).accessFault .imem (g s).pc .word = s.accessFault .imem s.pc .word := by
  rw [hg.pc, accessFault_congr (s := s) (by rw [mem_imem, mem_imem, hg.imem])]

theorem nextWord (hg : StepBlind g) (s : State) : (g s).nextWord = s.nextWord := by
  rw [State.nextWord, State.nextWord, hg.pc, hg.imem]

theorem fetchable (hg : StepBlind g) {s : State} (h : s.fetchable = true) : (g s).fetchable = true := by
  rw [fetchable_iff] at h ⊢
  rw [hg.accessFault, h]

/-- An instruction reads registers and commits one result. -/
theorem exec (hg : StepBlind g) {i : Instr} (hi : i ≠ .halt) {s : State} {v : Word}
    (h : Machine.exec i s = .next (s.commit i.decoded.rd v)) : Machine.exec i (g s) = .next (g (s.commit i.decoded.rd v)) := by
  obtain ⟨op, hop⟩ := exec_rType hi
  have hs := (hop s).symm.trans h
  have hgs := hop (g s)
  rw [execRType] at hs hgs
  rw [hgs, hg.readReg, hg.readReg, hg.commit, Host.Outcome.next.inj hs]

/-- A step before the change and a step after it differ by the change. -/
theorem step (hg : StepBlind g) {s t : State} (h : Machine.step s = .next t) : Machine.step (g s) = .next (g t) := by
  rcases step_cases s with ⟨hh, e⟩ | ⟨hh, f, hf, e⟩ | ⟨hh, hf, hw, e⟩ | ⟨hh, hf, r, hd, e⟩ | ⟨hh, hf, i, v, hd, hi, he, e⟩ <;>
    cases e.symm.trans h <;> rw [← hg.halted] at hh
  · exact step_of_halted hh
  · rw [step_of_accessFault hh ((hg.accessFault s).trans hf), State.raise, hg.halt]
    rfl
  · rw [step_of_haltWord hh (hg.fetchable hf) ((hg.nextWord s).trans hw), hg.halt]
  · rw [← hg.nextWord] at hd
    rw [step_of_reject hh (hg.fetchable hf) hd, State.raise, hg.halt, hg.countExecuted]
    rfl
  · rw [← hg.nextWord] at hd
    rw [step_of_instr hh (hg.fetchable hf) hd hi, hg.exec hi he, countAfter, hg.countExecuted]

theorem pcCheck (hg : StepBlind g) (s : State) : (g s).pcCheck = g s.pcCheck := by
  unfold State.pcCheck
  rw [hg.imem, hg.pc, hg.halt]
  split <;> rfl

theorem runIteration (hg : StepBlind g) {s t : State} (h : Machine.runIteration s = .next t) :
    Machine.runIteration (g s) = .next (g t) := by
  obtain ⟨u, hu, _⟩ := step_shape s
  cases (runIteration_of_step hu).symm.trans h
  rw [runIteration_of_step (hg.step hu), hg.pcCheck]

/-- `run` returns after as many iterations, by induction on their number. -/
theorem runWithin (hg : StepBlind g) (k : Nat) (s : State) : Machine.runWithin k (g s) = (Machine.runWithin k s).map g := by
  induction k generalizing s with
  | zero => cases hh : s.halted <;> simp [Machine.runWithin, hg.halted, hh]
  | succ k ih =>
    cases hh : s.halted with
    | true => rw [runWithin_of_halted hh, runWithin_of_halted ((hg.halted s).trans hh)]; rfl
    | false =>
      obtain ⟨t, ht⟩ := runIteration_next s
      rw [runWithin_succ hh ht, runWithin_succ ((hg.halted s).trans hh) (hg.runIteration ht), ih]

end StepBlind

/-! ## The data memory (R39, R130) -/

theorem setMem_commit (sp : Space) (m : Memory) (rd : RegIdx) (v : Word) (s : State) :
    (s.setMem sp m).commit rd v = (s.commit rd v).setMem sp m := by
  unfold State.commit State.writeReg
  cases sp <;> split <;> rfl

theorem stepBlind_setMem_dmem (m : Memory) : StepBlind (State.setMem .dmem m) where
  readReg _ _ := rfl
  pc _ := rfl
  imem _ := rfl
  halted _ := rfl
  halt _ _ := rfl
  commit rd v s := setMem_commit .dmem m rd v s
  countExecuted _ := rfl

/-- Settles O60: no step reads or writes the data memory. -/
theorem dataMemoryPlaysNoPartInARun : Obligations.DataMemoryPlaysNoPartInARun :=
  fun k s m => (stepBlind_setMem_dmem m).runWithin k s

/-! ## The storage cell of x0 (R15) -/

/-- The state with another value in the storage cell of x0. -/
def State.withCell (c : Word) (s : State) : State := { s with regs := s.regs.set 0 c }

@[simp] theorem withCell_readReg (c : Word) (s : State) (r : RegIdx) : (s.withCell c).readReg r = s.readReg r := by
  by_cases hr : r = 0#5
  · rw [hr, readReg_zero, readReg_zero]
  · have hne : 0 ≠ r.toNat := fun e => hr (BitVec.eq_of_toNat_eq e.symm)
    rw [readReg_of_ne_zero hr, readReg_of_ne_zero hr]
    simp [State.withCell, Vector.getElem_set_ne, hne]

/-- Register files that read alike differ at most in element 0 (R15). -/
theorem regs_eq_set_of_readReg {s t : State} (h : ∀ r, t.readReg r = s.readReg r) : t.regs = s.regs.set 0 t.regs[0] := by
  refine Vector.ext fun j hj => ?_
  by_cases h0 : j = 0
  · subst h0
    rw [Vector.getElem_set_self]
  · have hnat : (BitVec.ofNat 5 j).toNat = j := (BitVec.toNat_ofNat j 5).trans (Nat.mod_eq_of_lt hj)
    have hr : BitVec.ofNat 5 j ≠ 0#5 := fun e => h0 (hnat.symm.trans (congrArg BitVec.toNat e))
    have hread := h (BitVec.ofNat 5 j)
    rw [readReg_of_ne_zero hr, readReg_of_ne_zero hr] at hread
    simp only [hnat] at hread
    rw [Vector.getElem_set_ne _ _ (Ne.symm h0), hread]

/-- Two states differ at most in the storage cell of x0 exactly when one is the other with some value in that cell. -/
theorem sameVisible_iff (s t : State) : SameVisible s t ↔ ∃ c, t = s.withCell c := by
  constructor
  · rintro ⟨hregs, hpc, hi, hd, hh, hn, hc⟩
    have regs := regs_eq_set_of_readReg hregs
    refine ⟨t.regs[0], ?_⟩
    rw [State.withCell, ← regs, ← hpc, ← hi, ← hd, ← hh, ← hn, ← hc]
  · rintro ⟨c, rfl⟩
    exact ⟨withCell_readReg c s, rfl, rfl, rfl, rfl, rfl, rfl⟩

theorem withCell_writeReg (c : Word) (i : RegIdx) (v : Word) (s : State) :
    (s.withCell c).writeReg i v = (s.writeReg i v).withCell c := by
  unfold State.writeReg
  split
  · rfl
  · next hi =>
    have hne : i.toNat ≠ 0 := fun e => hi (BitVec.eq_of_toNat_eq e)
    simp only [State.withCell]
    rw [Vector.set_comm _ _ hne]

theorem stepBlind_withCell (c : Word) : StepBlind (State.withCell c) where
  readReg s r := withCell_readReg c s r
  pc _ := rfl
  imem _ := rfl
  halted _ := rfl
  halt _ _ := rfl
  commit rd v s := by rw [State.commit, withCell_writeReg]; rfl
  countExecuted _ := rfl

theorem withCell_setMem (c : Word) (sp : Space) (m : Memory) (s : State) :
    (s.withCell c).setMem sp m = (s.setMem sp m).withCell c := by
  cases sp <;> rfl

theorem withCell_mem (c : Word) (s : State) (sp : Space) : (s.withCell c).mem sp = s.mem sp := by cases sp <;> rfl

theorem withCell_hostReset (c : Word) (s : State) : (s.withCell c).hostReset = s.hostReset.withCell c := by
  simp [State.withCell, State.hostReset]

theorem withCell_setRegister (c : Word) (index : Int) (v : Word) (s : State) :
    (setRegister index v (s.withCell c)).2 = (setRegister index v s).2.withCell c := by
  unfold setRegister
  split
  · exact withCell_writeReg c _ v s
  · rfl

theorem withCell_accessFault (c : Word) (sp : Space) (a : Addr) (w : Width) (s : State) :
    (s.withCell c).accessFault sp a w = s.accessFault sp a w :=
  accessFault_congr (by rw [withCell_mem]) a w

theorem withCell_memRead (c : Word) (sp : Space) (a : Addr) (w : Width) (s : State) :
    ((s.withCell c).memRead sp a w).2 = (s.memRead sp a w).2.withCell c := by
  have hfault := withCell_accessFault c sp a w s
  cases hf : s.accessFault sp a w with
  | some f => rw [memRead_fault (hfault.trans hf), memRead_fault hf]; rfl
  | none => rw [memRead_ok (hfault.trans hf), memRead_ok hf]

theorem withCell_memWrite (c : Word) (sp : Space) (a : Addr) (w : Width) (v : Nat) (s : State) :
    (s.withCell c).memWrite sp a w v = (s.memWrite sp a w v).withCell c := by
  have hfault := withCell_accessFault c sp a w s
  cases hf : s.accessFault sp a w with
  | some f => rw [memWrite_fault (hfault.trans hf), memWrite_fault hf]; rfl
  | none => rw [memWrite_ok (hfault.trans hf), memWrite_ok hf, withCell_mem, withCell_setMem]

theorem withCell_loadFile (c : Word) (bs : List Byte) (s : State) :
    (loadFile bs (s.withCell c)).2 = (loadFile bs s).2.withCell c := by
  have himem : (s.withCell c).imem = s.imem := rfl
  unfold loadFile
  rw [himem]
  split
  · rfl
  · cases Config.fileLoadSetsPc0 <;> rfl

/-- A transaction before the change of the cell and after it differ by the change, or are refused alike. -/
theorem transact_withCell (c : Word) (x : Transaction) (s : State) :
    (∃ t, transact x s = .next t ∧ transact x (s.withCell c) = .next (t.withCell c)) ∨
    (∃ r, transact x s = .refused r ∧ transact x (s.withCell c) = .refused r) := by
  cases x with
  | step =>
    obtain ⟨t, ht, _⟩ := step_shape s
    exact .inl ⟨t, ht, (stepBlind_withCell c).step ht⟩
  | iterate =>
    cases hh : s.halted with
    | true => exact .inl ⟨s, iterateRun_of_halted hh, iterateRun_of_halted hh⟩
    | false =>
      obtain ⟨t, ht⟩ := runIteration_next s
      have running : ¬s.halted = true := by simp [hh]
      exact .inl ⟨t, (if_neg running).trans ht, (if_neg running).trans ((stepBlind_withCell c).runIteration ht)⟩
  | reset => exact .inl ⟨_, rfl, congrArg _ (withCell_hostReset c s)⟩
  | setPc v => exact .inl ⟨_, rfl, rfl⟩
  | setRegister index v => exact .inl ⟨_, rfl, congrArg _ (withCell_setRegister c index v s)⟩
  | read sp a w => exact .inl ⟨_, rfl, congrArg _ (withCell_memRead c sp a w s)⟩
  | write sp a w v =>
    by_cases hv : v < 2 ^ (8 * w.bytes)
    · exact .inl ⟨_, if_pos hv, (if_pos hv).trans (congrArg _ (withCell_memWrite c sp a w v s))⟩
    · exact .inr ⟨_, if_neg hv, if_neg hv⟩
  | loadProgram ws => exact .inl ⟨_, rfl, rfl⟩
  | loadFile bs => exact .inl ⟨_, rfl, congrArg _ (withCell_loadFile c bs s)⟩

/-- Settles O12: states that differ at most in the cell are one state and a change of its cell, which no transaction reads or writes. -/
theorem zeroCellIsUnobservable : Obligations.ZeroCellIsUnobservable := by
  unfold Obligations.ZeroCellIsUnobservable
  intro x s s' h
  obtain ⟨c, rfl⟩ := (sameVisible_iff s s').mp h
  rcases transact_withCell c x s with ⟨t, ht, ht'⟩ | ⟨r, hr, hr'⟩
  · exact .inl ⟨t, _, ht, ht', (sameVisible_iff t _).mpr ⟨c, rfl⟩⟩
  · exact .inr ⟨r, hr, hr'⟩

end Sys2Proof.Machine
end
